-- ==== Sys2Proof/Word.lean ====
section
/-! DEFINITION. The word types of the block's ports (10_state.md R15) and the five flags (R10). -/

namespace Sys2Proof

/-- A 64-bit port: `src`, `dest` or `result` (10_state.md R15). -/
abbrev Port := BitVec 64

/-- The 7-bit command word (30_encoding.md R30). -/
abbrev Cmd := BitVec 7

/-- A 5-bit flag bus: `flags_in`, `flags_out` or `flags_we` (10_state.md R11). -/
abbrev FlagBus := BitVec 5

/-- FLAGS: "5 independently addressable boolean fields" (10_state.md R10). -/
structure Flags where
  /-- Carry. -/
  cf : Bool
  /-- Overflow. -/
  of : Bool
  /-- Sign. -/
  sf : Bool
  /-- Zero. -/
  zf : Bool
  /-- Parity. -/
  pf : Bool
deriving DecidableEq, Repr

end Sys2Proof
end

