-- ==== Sys2Proof/Syntax.lean ====
section
/-! DEFINITION. The 17 operations at the three widths (00_scope.md R2, R5; 30_encoding.md R32), and the names
the source's calls use (R37). -/

namespace Sys2Proof

/-- The operand width `W`: exactly 8, 16 or 32 (00_scope.md R5). -/
inductive Width where
  | w8
  | w16
  | w32
deriving DecidableEq, Repr

/-- `W` as a number of bits. -/
def Width.bits : Width → Nat
  | .w8 => 8
  | .w16 => 16
  | .w32 => 32

/-- The 17 operations, one constructor per row of opcode_table.json.
The operands `src` and `dest` are ports and not part of the command (30_encoding.md R30, R34). -/
inductive Instr where
  | add (w : Width)
  | adc (w : Width)
  | sub (w : Width)
  | sbb (w : Width)
  | mul (w : Width)
  | imul (w : Width)
  | div (w : Width)
  | idiv (w : Width)
  | mod (w : Width)
  | imod (w : Width)
  | and (w : Width)
  | or (w : Width)
  | xor (w : Width)
  | shl (w : Width)
  | shr (w : Width)
  | sar (w : Width)
  | sal (w : Width)
deriving DecidableEq, Repr

/-- The width an instruction is called at. -/
def Instr.width : Instr → Width
  | .add w | .adc w | .sub w | .sbb w | .mul w | .imul w | .div w | .idiv w | .mod w | .imod w
  | .and w | .or w | .xor w | .shl w | .shr w | .sar w | .sal w => w

/-- The function name of a call (30_encoding.md R37). -/
def Instr.callName : Instr → String
  | .add _ => "alu_add"
  | .adc _ => "alu_adc"
  | .sub _ => "alu_sub"
  | .sbb _ => "alu_sbb"
  | .mul _ => "alu_mul"
  | .imul _ => "alu_imul"
  | .div _ => "alu_div"
  | .idiv _ => "alu_idiv"
  | .mod _ => "alu_mod"
  | .imod _ => "alu_imod"
  | .and _ => "alu_and"
  | .or _ => "alu_or"
  | .xor _ => "alu_xor"
  | .shl _ => "alu_shl"
  | .shr _ => "alu_shr"
  | .sar _ => "alu_sar"
  | .sal _ => "alu_sal"

/-- The two fields of a command word, before any check (30_encoding.md R30). -/
structure Fields where
  /-- `cmd[6:2]`. -/
  op : BitVec 5
  /-- `cmd[1:0]`. -/
  wsel : BitVec 2
deriving DecidableEq, Repr

/-- A call as the source writes it, `alu_add(src, dest, width)`, less its operand values (30_encoding.md R37). -/
structure CallForm where
  /-- The function name. -/
  name : String
  /-- The width argument. -/
  width : Nat
deriving DecidableEq, Repr

end Sys2Proof
end

