-- ==== Sys2Proof/WellFormed.lean ====
section
/-! DEFINITION. What makes a command word, a call and an instruction well formed.

`Instr` itself admits no ill-formed term: its width is one of the three by type.
The checks are therefore on what comes before it: the raw fields of a command word and the written call. -/

namespace Sys2Proof

/-- The supported widths are exactly 8, 16 and 32 bits (00_scope.md R5). -/
def supportedWidth (n : Nat) : Bool :=
  n == 8 || n == 16 || n == 32

/-- The `op` codes that no operation has (30_encoding.md R35). -/
def unassignedOp (op : BitVec 5) : Bool :=
  (0b00100 ≤ op && op ≤ 0b00111) || op == 0b01110 || op == 0b01111
    || (0b10011 ≤ op && op ≤ 0b10111) || (0b11100 ≤ op && op ≤ 0b11111)

/-- `wsel = 11` is reserved (30_encoding.md R31). -/
def reservedWsel (wsel : BitVec 2) : Bool :=
  wsel == 0b11

/-- A command word is defined when neither field is reserved (30_encoding.md R35). -/
def Fields.wellFormed (f : Fields) : Bool :=
  !unassignedOp f.op && !reservedWsel f.wsel

/-- The function names of the 17 operations (30_encoding.md R37). -/
def callNames : List String :=
  ["alu_add", "alu_adc", "alu_sub", "alu_sbb", "alu_mul", "alu_imul", "alu_div", "alu_idiv", "alu_mod"]
    ++ ["alu_imod", "alu_and", "alu_or", "alu_xor", "alu_shl", "alu_shr", "alu_sar", "alu_sal"]

/-- A written call names one of the 17 operations and a supported width. -/
def CallForm.wellFormed (c : CallForm) : Bool :=
  callNames.contains c.name && supportedWidth c.width

/-- An instruction is called at a supported width. -/
def Instr.wellFormed (i : Instr) : Bool :=
  supportedWidth i.width.bits

end Sys2Proof
end

