-- ==== Sys2Proof/Decode.lean ====
section
/-! DEFINITION. The decoder, total on the 128 command words and rejecting by name (30_encoding.md R30 to R32, R35,
R36), the encoder, and the reading of a written call (R37). -/

namespace Sys2Proof

/-- Why a command word selects no operation (30_encoding.md R35). -/
inductive Reserved where
  /-- `op` is not in the table of R32. -/
  | unassigned (op : BitVec 5)
  /-- `op` is assigned and `wsel` is 11. -/
  | width (op : BitVec 5)
deriving DecidableEq, Repr

/-- The fields of a command word: `op = cmd[6:2]`, `wsel = cmd[1:0]` (30_encoding.md R30). -/
def fieldsOf (c : Cmd) : Fields :=
  { op := c.extractLsb' 2 5, wsel := c.extractLsb' 0 2 }

/-- The width a width select encodes (30_encoding.md R31). -/
def decodeWidth (wsel : BitVec 2) : Option Width :=
  match wsel.toNat with
  | 0b00 => some .w8
  | 0b01 => some .w16
  | 0b10 => some .w32
  | _ => none

/-- The operation an operation code selects (30_encoding.md R32). -/
def decodeOp (op : BitVec 5) : Option (Width → Instr) :=
  match op.toNat with
  | 0b00000 => some .add
  | 0b00001 => some .adc
  | 0b00010 => some .sub
  | 0b00011 => some .sbb
  | 0b01000 => some .mul
  | 0b01001 => some .imul
  | 0b01010 => some .div
  | 0b01011 => some .idiv
  | 0b01100 => some .mod
  | 0b01101 => some .imod
  | 0b10000 => some .and
  | 0b10001 => some .or
  | 0b10010 => some .xor
  | 0b11000 => some .shl
  | 0b11001 => some .shr
  | 0b11010 => some .sar
  | 0b11011 => some .sal
  | _ => none

/-- Decoding uses `cmd` alone: a defined command or the reason it is reserved (30_encoding.md R36). -/
def decode (c : Cmd) : Except Reserved Instr :=
  match decodeOp (fieldsOf c).op, decodeWidth (fieldsOf c).wsel with
  | none, _ => .error (.unassigned (fieldsOf c).op)
  | some _, none => .error (.width (fieldsOf c).op)
  | some mk, some w => .ok (mk w)

/-- The instruction of a table word.
The command word is the 7 bits of the `cmd` port; a number with a bit above bit 6 is no command word (log 9). -/
def decodeTableWord (_nbits w : Nat) : Option Instr :=
  if w < 2 ^ 7 then (decode (BitVec.ofNat 7 w)).toOption else none

/-- The operation code of an instruction (30_encoding.md R32). -/
def opCode : Instr → BitVec 5
  | .add _ => 0b00000
  | .adc _ => 0b00001
  | .sub _ => 0b00010
  | .sbb _ => 0b00011
  | .mul _ => 0b01000
  | .imul _ => 0b01001
  | .div _ => 0b01010
  | .idiv _ => 0b01011
  | .mod _ => 0b01100
  | .imod _ => 0b01101
  | .and _ => 0b10000
  | .or _ => 0b10001
  | .xor _ => 0b10010
  | .shl _ => 0b11000
  | .shr _ => 0b11001
  | .sar _ => 0b11010
  | .sal _ => 0b11011

/-- The width select of a width (30_encoding.md R31). -/
def wselCode : Width → BitVec 2
  | .w8 => 0b00
  | .w16 => 0b01
  | .w32 => 0b10

/-- The command word of an instruction: `op` above `wsel` (30_encoding.md R30). -/
def encode (i : Instr) : Cmd :=
  opCode i ++ wselCode i.width

/-- The width a written call names. -/
def widthOfNumber (n : Nat) : Option Width :=
  if n = 8 then some .w8 else if n = 16 then some .w16 else if n = 32 then some .w32 else none

/-- The operations in the order of R32, for reading a call by its name. -/
def operations : List (Width → Instr) :=
  [.add, .adc, .sub, .sbb, .mul, .imul, .div, .idiv, .mod] ++ [.imod, .and, .or, .xor, .shl, .shr, .sar, .sal]

/-- The instruction a written call stands for (30_encoding.md R37). -/
def ofCallForm (c : CallForm) : Option Instr :=
  match operations.find? (fun mk => (mk .w8).callName == c.name), widthOfNumber c.width with
  | some mk, some w => some (mk w)
  | _, _ => none

/-- The written call of an instruction (30_encoding.md R37). -/
def callFormOf (i : Instr) : CallForm :=
  { name := i.callName, width := i.width.bits }

end Sys2Proof
end

