-- ==== Sys2Proof/Config.lean ====
section
/-! DEFINITION. What is fixed for the machine and is no state (00_scope.md section 4).

The widths `OPW`, `RESW` and `CMDW` are in Word.lean's types.
The other parameters have the one value that every rule of the spec assumes, and stand where the rule is modelled:
`P_DIV0 = silent_zero_with_status` (Machine/Div.lean, R80), `P_SHIFT0_CF = unchanged` and
`P_SHIFT_GE_W = mathematical` (Machine/Shift.lean, R95 and R96), `P_LOGIC_CFOF = unchanged` (Machine/Logic.lean, R85),
`P_REM_SIGN = dividend` (Machine/Div.lean, R79). -/

namespace Sys2Proof

/-- `P_FLAGS_START`: the FLAGS of a context before its first call.
The spec leaves it unspecified, any of 32 values (10_state.md R18).
DESIGN CHOICE: all five are 0 (log 1, unsafe); no statement rests on it. -/
def Config.flagsStart : Flags :=
  { cf := false, of := false, sf := false, zf := false, pf := false }

end Sys2Proof
end

