-- ==== Sys2Proof/Machine/State.lean ====
section
/-! DEFINITION. The machine's state: the ports of the block (10_state.md R15), the FLAGS of each caller context (R10,
R19) and what the caller does next (20_memory.md R25); the reasons a step can stop; the state after reset. -/

namespace Sys2Proof.Machine

/-- Why the machine could stop with a fault: never.
"The block raises no exception, takes no trap and has no fault state" (00_scope.md R4; log 20), so there is no
constructor, and no step can answer a fault. -/
inductive Fault where
deriving DecidableEq, Repr

/-- Why a step could be refused. -/
inductive Refusal where
  /-- An instruction without a meaning in this model, raised in exec's arm only; no arm raises it.
  Safe: nothing is claimed of the machine then. -/
  | notModelled (mnemonic : String)
deriving DecidableEq, Repr

/-- The output ports of one call (10_state.md R15). -/
structure Outputs where
  /-- The result, always fully driven (R17). -/
  result : Port
  /-- FLAGS after the call (R12). -/
  flagsOut : FlagBus
  /-- Which flags the call writes (R13). -/
  flagsWe : FlagBus
  /-- `cmd` is a reserved encoding (60_exceptions.md R101). -/
  ill : Bool
  /-- A divide or remainder has a zero effective divisor (R102). -/
  dbz : Bool
deriving DecidableEq, Repr

/-- The flags one call writes: a value for each flag it owns, none for each it does not (10_state.md R12). -/
structure FlagWrites where
  cf : Option Bool
  of : Option Bool
  sf : Option Bool
  zf : Option Bool
  pf : Option Bool
deriving DecidableEq, Repr

/-- A call the caller makes: the context it is made for and the three input ports (10_state.md R15, R19). -/
structure Call where
  ctx : Nat
  cmd : Cmd
  src : Port
  dest : Port
deriving DecidableEq, Repr

/-- What the caller can do between two calls (20_memory.md R25): present the next call, or write FLAGS itself. -/
inductive CallerAct where
  | call (c : Call)
  | writeFlags (ctx : Nat) (f : Flags)
deriving DecidableEq, Repr

/-- The whole state.  The block stores nothing (10_state.md R14): FLAGS and the levels on the ports are the caller's. -/
structure State where
  /-- The context that makes the call (R19). -/
  ctx : Nat
  /-- FLAGS of every context, in canonical form: context numbers strictly rising, and no entry equal to
  `Config.flagsStart`, which is what an unlisted context has (R18, R19). -/
  bank : List (Nat × Flags)
  /-- The command port. -/
  cmd : Cmd
  /-- The source operand port. -/
  src : Port
  /-- The destination operand port. -/
  dest : Port
  /-- The output ports, as the call that ended last drove them (70_reset_and_hazards.md R132). -/
  out : Outputs
  /-- What the caller does after the call now on the ports (log 5). -/
  script : List CallerAct
deriving DecidableEq, Repr

/-- The state before the first call.  There is no reset input (70_reset_and_hazards.md R120) and the spec gives no
value; every field is at the value logs 1, 2 and 3 name. -/
def State.reset : State :=
  { ctx := 0
    bank := []
    cmd := 0
    src := 0
    dest := 0
    out := { result := 0, flagsOut := 0, flagsWe := 0, ill := false, dbz := false }
    script := [] }

end Sys2Proof.Machine
end

