-- ==== Sys2Proof/Machine/Operands.lean ====
section
/-! DEFINITION. The width normalizer (40_width_normalizer_flag_deriver.md R40, R41) and the extensions of
00_scope.md section 6. Values are exact integers and are narrowed at the end. -/

namespace Sys2Proof.Machine

/-- Unsigned normalisation (R40): `v mod 2^W`. -/
def normU (v : Port) (w : Width) : Nat :=
  v.toNat % 2 ^ w.bits

/-- The two's-complement value of `W` bits given as a number below `2^W` (00_scope.md section 6, `signed_W`). -/
def signedW (u : Nat) (w : Width) : Int :=
  if u < 2 ^ (w.bits - 1) then (u : Int) else (u : Int) - 2 ^ w.bits

/-- Signed normalisation (R41): `signed_W(v[W-1:0])`. -/
def normS (v : Port) (w : Width) : Int :=
  signedW (normU v w) w

/-- `twos_W(i)`: the `W` bits of an integer, `i mod 2^W` (00_scope.md section 6). -/
def twosW (i : Int) (w : Width) : Nat :=
  (i % 2 ^ w.bits).toNat

/-- `zext_64(r)` (00_scope.md section 6). -/
def zext (r : Nat) : Port :=
  BitVec.ofNat 64 r

/-- `twos_64(i)` (00_scope.md section 6). -/
def twos64 (i : Int) : Port :=
  BitVec.ofInt 64 i

/-- `sext_64` of `W` bits given as a number below `2^W` (00_scope.md section 6). -/
def sext (r : Nat) (w : Width) : Port :=
  twos64 (signedW r w)

/-- The shift distance to compute with.  A distance of `W` moves every bit of a `W`-bit value out, so a longer one gives
the same result; the bound keeps `2^n` small enough to evaluate (45_shifts.md R96; log 10). -/
def distance (n : Nat) (w : Width) : Nat :=
  min n w.bits

end Sys2Proof.Machine
end

