-- ==== Sys2Proof/Machine/Flags.lean ====
section
/-! DEFINITION. The flag deriver (40_width_normalizer_flag_deriver.md R45 to R54), the flag bus (10_state.md R11)
and the pass-through of flags a call does not own (R12). -/

namespace Sys2Proof.Machine

/-- FLAGS on a bus: bit 4 CF, bit 3 OF, bit 2 SF, bit 1 ZF, bit 0 PF (10_state.md R11). -/
def toBus (f : Flags) : FlagBus :=
  BitVec.ofBool f.cf ++ BitVec.ofBool f.of ++ BitVec.ofBool f.sf ++ BitVec.ofBool f.zf ++ BitVec.ofBool f.pf

/-- The FLAGS a bus carries (10_state.md R11). -/
def ofBus (b : FlagBus) : Flags :=
  { cf := b.getLsbD 4, of := b.getLsbD 3, sf := b.getLsbD 2, zf := b.getLsbD 1, pf := b.getLsbD 0 }

/-- R45: the normalised result is zero. -/
def zfOf (r : Nat) : Bool :=
  r == 0

/-- R46: bit `W-1` of the normalised result. -/
def sfOf (r : Nat) (w : Width) : Bool :=
  r.testBit (w.bits - 1)

/-- R47: the number of 1 bits among bits 7 to 0 is even. -/
def pfOf (r : Nat) : Bool :=
  (List.range 8).countP (fun i => r.testBit i) % 2 == 0

/-- R48: the exact sum is at least `2^W`. -/
def cfAdd (d v c : Nat) (w : Width) : Bool :=
  2 ^ w.bits ≤ d + v + c

/-- R49: the exact difference is negative. -/
def cfSub (d v b : Nat) (_w : Width) : Bool :=
  d < v + b

/-- R50: operands of one sign, result of the other. -/
def ofAdd (d v r : Nat) (w : Width) : Bool :=
  d.testBit (w.bits - 1) == v.testBit (w.bits - 1) && r.testBit (w.bits - 1) != d.testBit (w.bits - 1)

/-- R51: operands of different signs, result's sign not the minuend's. -/
def ofSub (d v r : Nat) (w : Width) : Bool :=
  d.testBit (w.bits - 1) != v.testBit (w.bits - 1) && r.testBit (w.bits - 1) != d.testBit (w.bits - 1)

/-- R52: the product does not fit in `W` bits. -/
def cfofMul (p : Nat) (w : Width) : Bool :=
  2 ^ w.bits ≤ p

/-- R53, left shift by `n ≥ 1`: the high-order bit of the value shifted by one less. -/
def cfShl (d n : Nat) (w : Width) : Bool :=
  (d * 2 ^ distance (n - 1) w % 2 ^ w.bits).testBit (w.bits - 1)

/-- R53, logical right shift by `n ≥ 1`: the low-order bit of the value shifted by one less. -/
def cfShr (d n : Nat) (w : Width) : Bool :=
  (d / 2 ^ distance (n - 1) w).testBit 0

/-- R53, arithmetic right shift by `n ≥ 1`: the parity of the value shifted by one less.
The divisor is positive, so `/` rounds toward minus infinity. -/
def cfSar (x : Int) (n : Nat) (w : Width) : Bool :=
  x / 2 ^ distance (n - 1) w % 2 == 1

/-- Nothing is written (R54: signed multiply, divide and remainder). -/
def writesNone : FlagWrites :=
  { cf := none, of := none, sf := none, zf := none, pf := none }

/-- SF, ZF and PF are written from the result (R54: AND, OR, XOR, and the shifts' share). -/
def writesSZP (r : Nat) (w : Width) : FlagWrites :=
  { cf := none, of := none, sf := some (sfOf r w), zf := some (zfOf r), pf := some (pfOf r) }

/-- All five are written (R54: the add and subtract family). -/
def writesAll (cf of : Bool) (r : Nat) (w : Width) : FlagWrites :=
  { writesSZP r w with cf := some cf, of := some of }

/-- CF and OF receive one value (R52, R54: unsigned multiply). -/
def writesCFOF (b : Bool) : FlagWrites :=
  { writesNone with cf := some b, of := some b }

/-- The shifts: SF, ZF, PF always, CF when the count is at least 1, OF never (R54; 45_shifts.md R90, R95). -/
def writesShift (n : Nat) (cf : Bool) (r : Nat) (w : Width) : FlagWrites :=
  { writesSZP r w with cf := if n = 0 then none else some cf }

/-- FLAGS after a call: written flags overwritten, the others as before (10_state.md R12). -/
def passThrough (fw : FlagWrites) (old : Flags) : Flags :=
  { cf := fw.cf.getD old.cf
    of := fw.of.getD old.of
    sf := fw.sf.getD old.sf
    zf := fw.zf.getD old.zf
    pf := fw.pf.getD old.pf }

/-- `flags_we`: bit `i` is 1 exactly when the call writes flag `i` (10_state.md R13, R15). -/
def writeMask (fw : FlagWrites) : FlagBus :=
  toBus { cf := fw.cf.isSome, of := fw.of.isSome, sf := fw.sf.isSome, zf := fw.zf.isSome, pf := fw.pf.isSome }

end Sys2Proof.Machine
end

