-- ==== Sys2Proof/Machine/Ops.lean ====
section
/-! DEFINITION. The shared operations: FLAGS of a context (10_state.md R10, R19), the outputs of a call and its end
(R12, R15; 70_reset_and_hazards.md R132), and the caller's turn between calls (20_memory.md R25).

There is no memory operation (20_memory.md R20) and no register file (10_state.md R14).
There is no operation that takes an exception or returns from one: "There is no trap entry" and "no trap return"
(60_exceptions.md R105, R106).  What R105 says instead is modelled here: with `ill` or `dbz` at 1 the call still
completes, through `endCall`, as every call does. -/

namespace Sys2Proof.Machine

/-- FLAGS of a context; an unlisted one has the start value (10_state.md R18, R19). -/
def bankRead : List (Nat × Flags) → Nat → Flags
  | [], _ => Config.flagsStart
  | (k, f) :: rest, c => if k = c then f else bankRead rest c

/-- A list without the entries of context `c`. -/
def bankErase (l : List (Nat × Flags)) (c : Nat) : List (Nat × Flags) :=
  l.filter (fun e => e.1 != c)

/-- An entry put before the first larger context number. -/
def bankInsert : List (Nat × Flags) → Nat → Flags → List (Nat × Flags)
  | [], c, f => [(c, f)]
  | (k, g) :: rest, c, f => if c < k then (c, f) :: (k, g) :: rest else (k, g) :: bankInsert rest c f

/-- Writes one context's FLAGS and no other's, keeping the canonical form: an entry equal to the start value is not
listed. -/
def bankWrite (l : List (Nat × Flags)) (c : Nat) (f : Flags) : List (Nat × Flags) :=
  if f = Config.flagsStart then bankErase l c else bankInsert (bankErase l c) c f

/-- The canonical form: context numbers strictly rising, no entry equal to what an unlisted context has. -/
def bankWf : List (Nat × Flags) → Bool
  | [] => true
  | (k, f) :: rest => f != Config.flagsStart && rest.all (fun e => k < e.1) && bankWf rest

/-- FLAGS of context `c`. -/
def State.flagsOf (s : State) (c : Nat) : Flags :=
  bankRead s.bank c

/-- FLAGS of the context that makes the call: what `flags_in` carries (20_memory.md R25). -/
def State.flags (s : State) : Flags :=
  s.flagsOf s.ctx

/-- The input port `flags_in` (10_state.md R15). -/
def State.flagsIn (s : State) : FlagBus :=
  toBus s.flags

/-- A context's FLAGS is written: by the end of its call, or by the caller itself (20_memory.md R25). -/
def State.writeFlags (s : State) (c : Nat) (f : Flags) : State :=
  { s with bank := bankWrite s.bank c f }

/-- The outputs of a defined command that gives `result` and writes the flags `fw` (10_state.md R12, R15). -/
def outputsOf (old : Flags) (result : Port) (fw : FlagWrites) (dbz : Bool) : Outputs :=
  { result := result, flagsOut := toBus (passThrough fw old), flagsWe := writeMask fw, ill := false, dbz := dbz }

/-- The outputs of a reserved command (30_encoding.md R35; 60_exceptions.md R101). -/
def reservedOutputs (old : Flags) : Outputs :=
  { result := 0, flagsOut := toBus old, flagsWe := 0, ill := true, dbz := false }

/-- The end of a call: the caller takes the outputs and stores `flags_out` into the FLAGS of the context that made the
call (70_reset_and_hazards.md R132; 10_state.md R19). -/
def State.endCall (s : State) (o : Outputs) : State :=
  { s.writeFlags s.ctx (ofBus o.flagsOut) with out := o }

/-- A meaning's answer: every call completes (60_exceptions.md R100, R105). -/
def finish (s : State) (o : Outputs) : Host.Outcome State Fault Refusal :=
  .next (s.endCall o)

/-- The caller puts a call on the input ports (10_state.md R15). -/
def State.present (s : State) (c : Call) : State :=
  { s with ctx := c.ctx, cmd := c.cmd, src := c.src, dest := c.dest }

/-- The caller's acts up to its next call.  With none left the ports keep their levels (log 5). -/
def callerActs : List CallerAct → State → State
  | [], s => { s with script := [] }
  | .call c :: rest, s => { s.present c with script := rest }
  | .writeFlags c f :: rest, s => callerActs rest (s.writeFlags c f)

/-- The caller's turn after a call (20_memory.md R25). -/
def State.callerTurn (s : State) : State :=
  callerActs s.script s

end Sys2Proof.Machine
end

