-- ==== Sys2Proof/Machine/AddSub.lean ====
section
/-! DEFINITION. add_sub_family: ADD, ADC, SUB, SBB (41_add_sub_family.md R60 to R64). -/

namespace Sys2Proof.Machine

/-- `dest + src + c` in `W` bits, with the flags of the exact sum (R61, R62). -/
def addOutputs (w : Width) (src dest : Port) (c : Nat) (old : Flags) : Outputs :=
  let d := normU dest w
  let v := normU src w
  let r := (d + v + c) % 2 ^ w.bits
  outputsOf old (zext r) (writesAll (cfAdd d v c w) (ofAdd d v r w) r w) false

/-- `dest - src - b` in `W` bits, with the flags of the exact difference (R63, R64). -/
def subOutputs (w : Width) (src dest : Port) (b : Nat) (old : Flags) : Outputs :=
  let d := normU dest w
  let v := normU src w
  let r := twosW ((d : Int) - v - b) w
  outputsOf old (zext r) (writesAll (cfSub d v b w) (ofSub d v r w) r w) false

/-- R61. -/
def execAdd (w : Width) (s : State) : Host.Outcome State Fault Refusal :=
  finish s (addOutputs w s.src s.dest 0 s.flags)

/-- R62: the carry-in is CF before the call. -/
def execAdc (w : Width) (s : State) : Host.Outcome State Fault Refusal :=
  finish s (addOutputs w s.src s.dest s.flags.cf.toNat s.flags)

/-- R63. -/
def execSub (w : Width) (s : State) : Host.Outcome State Fault Refusal :=
  finish s (subOutputs w s.src s.dest 0 s.flags)

/-- R64: the borrow-in is CF before the call. -/
def execSbb (w : Width) (s : State) : Host.Outcome State Fault Refusal :=
  finish s (subOutputs w s.src s.dest s.flags.cf.toNat s.flags)

end Sys2Proof.Machine
end

