-- ==== Sys2Proof/Machine/Div.lean ====
section
/-! DEFINITION. div_family: DIV, IDIV, MOD, IMOD (43_div_family.md R75 to R80). -/

namespace Sys2Proof.Machine

/-- A divide or remainder: no flag is written, and with a zero effective divisor the result is 0 and `dbz` is 1
(R75, R80). -/
def divideOutputs (old : Flags) (zeroDivisor : Bool) (result : Port) : Outputs :=
  if zeroDivisor then outputsOf old 0 writesNone true else outputsOf old result writesNone false

/-- The effective divisor of DIV and MOD (R75). -/
def divisorU (src : Port) (w : Width) : Nat :=
  normU src w

/-- The effective divisor of IDIV and IMOD, not narrowed (R75). -/
def divisorS (src : Port) : Int :=
  src.toInt

/-- R76: the low `W` bits of the quotient of the 64-bit dividend. -/
def divOutputs (w : Width) (src dest : Port) (old : Flags) : Outputs :=
  divideOutputs old (divisorU src w == 0) (zext (dest.toNat / divisorU src w % 2 ^ w.bits))

/-- R77: the quotient rounds toward zero; its low `W` bits, sign-extended. -/
def idivOutputs (w : Width) (src dest : Port) (old : Flags) : Outputs :=
  divideOutputs old (divisorS src == 0) (sext (twosW (dest.toInt.tdiv (divisorS src)) w) w)

/-- R78. -/
def modOutputs (w : Width) (src dest : Port) (old : Flags) : Outputs :=
  divideOutputs old (divisorU src w == 0) (zext (dest.toNat % divisorU src w % 2 ^ w.bits))

/-- R79: the remainder `n - v * q` of R77's quotient; its low `W` bits, sign-extended. -/
def imodOutputs (w : Width) (src dest : Port) (old : Flags) : Outputs :=
  let m := dest.toInt - divisorS src * dest.toInt.tdiv (divisorS src)
  divideOutputs old (divisorS src == 0) (sext (twosW m w) w)

/-- R76. -/
def execDiv (w : Width) (s : State) : Host.Outcome State Fault Refusal :=
  finish s (divOutputs w s.src s.dest s.flags)

/-- R77. -/
def execIdiv (w : Width) (s : State) : Host.Outcome State Fault Refusal :=
  finish s (idivOutputs w s.src s.dest s.flags)

/-- R78. -/
def execMod (w : Width) (s : State) : Host.Outcome State Fault Refusal :=
  finish s (modOutputs w s.src s.dest s.flags)

/-- R79. -/
def execImod (w : Width) (s : State) : Host.Outcome State Fault Refusal :=
  finish s (imodOutputs w s.src s.dest s.flags)

end Sys2Proof.Machine
end

