-- ==== Sys2Proof/Machine/Logic.lean ====
section
/-! DEFINITION. and_or_xor: AND, OR, XOR (44_and_or_xor.md R85 to R88). -/

namespace Sys2Proof.Machine

/-- A bitwise result of normalised operands: SF, ZF and PF are written, CF and OF pass through (R85). -/
def logicOutputs (w : Width) (r : Nat) (old : Flags) : Outputs :=
  outputsOf old (zext r) (writesSZP r w) false

/-- R86. -/
def execAnd (w : Width) (s : State) : Host.Outcome State Fault Refusal :=
  finish s (logicOutputs w (normU s.dest w &&& normU s.src w) s.flags)

/-- R87. -/
def execOr (w : Width) (s : State) : Host.Outcome State Fault Refusal :=
  finish s (logicOutputs w (normU s.dest w ||| normU s.src w) s.flags)

/-- R88. -/
def execXor (w : Width) (s : State) : Host.Outcome State Fault Refusal :=
  finish s (logicOutputs w (normU s.dest w ^^^ normU s.src w) s.flags)

end Sys2Proof.Machine
end

