-- ==== Sys2Proof/Machine/Mul.lean ====
section
/-! DEFINITION. mul_family: MUL, IMUL (42_mul_family.md R70, R71). -/

namespace Sys2Proof.Machine

/-- The whole unsigned product; CF and OF say that it does not fit in `W` bits (R70). -/
def mulOutputs (w : Width) (src dest : Port) (old : Flags) : Outputs :=
  let p := normU dest w * normU src w
  outputsOf old (zext p) (writesCFOF (cfofMul p w)) false

/-- The whole signed product; no flag (R71). -/
def imulOutputs (w : Width) (src dest : Port) (old : Flags) : Outputs :=
  outputsOf old (twos64 (normS dest w * normS src w)) writesNone false

/-- R70. -/
def execMul (w : Width) (s : State) : Host.Outcome State Fault Refusal :=
  finish s (mulOutputs w s.src s.dest s.flags)

/-- R71. -/
def execImul (w : Width) (s : State) : Host.Outcome State Fault Refusal :=
  finish s (imulOutputs w s.src s.dest s.flags)

end Sys2Proof.Machine
end

