-- ==== Sys2Proof/Machine/Shift.lean ====
section
/-! DEFINITION. shifts: SHL, SHR, SAR, SAL (45_shifts.md R90 to R96). There is no rotate (R97).

The count is `norm_u(src, W)`, reduced in no other way (R90).
Laws/Shift.lean shows that the bounded `distance` gives the value of the exact `2^n` of the rules. -/

namespace Sys2Proof.Machine

/-- R91: zeros enter at bit 0. -/
def shlOutputs (w : Width) (src dest : Port) (old : Flags) : Outputs :=
  let d := normU dest w
  let n := normU src w
  let r := d * 2 ^ distance n w % 2 ^ w.bits
  outputsOf old (zext r) (writesShift n (cfShl d n w) r w) false

/-- R92: zeros enter at bit `W-1`. -/
def shrOutputs (w : Width) (src dest : Port) (old : Flags) : Outputs :=
  let d := normU dest w
  let n := normU src w
  let r := d / 2 ^ distance n w
  outputsOf old (zext r) (writesShift n (cfShr d n w) r w) false

/-- R93: copies of the old bit `W-1` enter at the top.  The divisor is positive, so `/` rounds toward minus infinity. -/
def sarOutputs (w : Width) (src dest : Port) (old : Flags) : Outputs :=
  let x := normS dest w
  let n := normU src w
  let r := twosW (x / 2 ^ distance n w) w
  outputsOf old (zext r) (writesShift n (cfSar x n w) r w) false

/-- R91. -/
def execShl (w : Width) (s : State) : Host.Outcome State Fault Refusal :=
  finish s (shlOutputs w s.src s.dest s.flags)

/-- R92. -/
def execShr (w : Width) (s : State) : Host.Outcome State Fault Refusal :=
  finish s (shrOutputs w s.src s.dest s.flags)

/-- R93. -/
def execSar (w : Width) (s : State) : Host.Outcome State Fault Refusal :=
  finish s (sarOutputs w s.src s.dest s.flags)

/-- R94: as SHL. -/
def execSal (w : Width) (s : State) : Host.Outcome State Fault Refusal :=
  finish s (shlOutputs w s.src s.dest s.flags)

end Sys2Proof.Machine
end

