-- ==== Sys2Proof/Machine/Dispatch.lean ====
section
/-! DEFINITION. One arm per instruction, each one call of its meaning. -/

namespace Sys2Proof.Machine

def exec (i : Instr) (s : State) : Host.Outcome State Fault Refusal :=
  match i with
  | .add w => Sys2Proof.Machine.execAdd w s
  | .adc w => Sys2Proof.Machine.execAdc w s
  | .sub w => Sys2Proof.Machine.execSub w s
  | .sbb w => Sys2Proof.Machine.execSbb w s
  | .mul w => Sys2Proof.Machine.execMul w s
  | .imul w => Sys2Proof.Machine.execImul w s
  | .div w => Sys2Proof.Machine.execDiv w s
  | .idiv w => Sys2Proof.Machine.execIdiv w s
  | .mod w => Sys2Proof.Machine.execMod w s
  | .imod w => Sys2Proof.Machine.execImod w s
  | .and w => Sys2Proof.Machine.execAnd w s
  | .or w => Sys2Proof.Machine.execOr w s
  | .xor w => Sys2Proof.Machine.execXor w s
  | .shl w => Sys2Proof.Machine.execShl w s
  | .shr w => Sys2Proof.Machine.execShr w s
  | .sar w => Sys2Proof.Machine.execSar w s
  | .sal w => Sys2Proof.Machine.execSal w s

end Sys2Proof.Machine
end

