-- ==== Sys2Proof/Machine/Step.lean ====
section
/-! DEFINITION. One step is one complete call (70_reset_and_hazards.md R131, R132) and then the caller's turn
(20_memory.md R25). -/

namespace Sys2Proof.Machine

/-- The block decodes `cmd`, drives its outputs, the caller stores `flags_out`, and the caller takes its turn.
A reserved command completes too, with `ill = 1` and no flag written (30_encoding.md R35; 60_exceptions.md R105;
log 7). -/
def step (s : State) : Host.Outcome State Fault Refusal :=
  match decode s.cmd with
  | .error _ => .next (s.endCall (reservedOutputs s.flags)).callerTurn
  | .ok i =>
    match exec i s with
    | .next t => .next t.callerTurn
    | .fault r => .fault r
    | .refused r => .refused r

/-- The caller drives a command on the `cmd` port; the operands, FLAGS and all else stay (log 9). -/
def State.withFetchWord (s : State) (_nbits w : Nat) : State :=
  { s with cmd := BitVec.ofNat 7 w }

end Sys2Proof.Machine
end

