-- ==== Sys2Proof/Machine/Block.lean ====
section
/-! DEFINITION. The block as the function it is: the outputs from `cmd`, `src`, `dest` and FLAGS (10_state.md R16).
Statements about sequences of calls are written with it; Laws/Step.lean shows that `step` drives exactly it. -/

namespace Sys2Proof.Machine

/-- The outputs of a defined command. -/
def instrOutputs (i : Instr) (src dest : Port) (old : Flags) : Outputs :=
  match i with
  | .add w => addOutputs w src dest 0 old
  | .adc w => addOutputs w src dest old.cf.toNat old
  | .sub w => subOutputs w src dest 0 old
  | .sbb w => subOutputs w src dest old.cf.toNat old
  | .mul w => mulOutputs w src dest old
  | .imul w => imulOutputs w src dest old
  | .div w => divOutputs w src dest old
  | .idiv w => idivOutputs w src dest old
  | .mod w => modOutputs w src dest old
  | .imod w => imodOutputs w src dest old
  | .and w => logicOutputs w (normU dest w &&& normU src w) old
  | .or w => logicOutputs w (normU dest w ||| normU src w) old
  | .xor w => logicOutputs w (normU dest w ^^^ normU src w) old
  | .shl w => shlOutputs w src dest old
  | .shr w => shrOutputs w src dest old
  | .sar w => sarOutputs w src dest old
  | .sal w => shlOutputs w src dest old

/-- The outputs of any command (10_state.md R16; 30_encoding.md R35, R36). -/
def blockOutputs (cmd : Cmd) (src dest : Port) (old : Flags) : Outputs :=
  match decode cmd with
  | .error _ => reservedOutputs old
  | .ok i => instrOutputs i src dest old

end Sys2Proof.Machine
end

