-- ==== Sys2Proof/Safety.lean ====
section
/-! DEFINITION. What claims speak of: safe runs, what a call leaves alone, the invariant, and sequences of calls. -/

namespace Sys2Proof.Machine

/-- The call that ended last was one the caller may make: its command was defined.
A call with `ill = 1` is "a fault of the caller" whose outputs have no further meaning (60_exceptions.md R101). -/
def State.callerOk (s : State) : Bool :=
  !s.out.ill

/-- As `callerOk`, for a caller that also treats a division by zero as its own error (60_exceptions.md R102). -/
def State.callerOkStrict (s : State) : Bool :=
  s.callerOk && !s.out.dbz

/-- Each of the next `k` calls is made and passes the check. -/
def safeFor (check : State → Bool) : Nat → State → Bool
  | 0, _ => true
  | k + 1, s =>
    match step s with
    | .next t => check t && safeFor check k t
    | .fault _ => false
    | .refused _ => false

/-- The next `k` calls, each followed by the caller's turn. -/
def runCalls : Nat → State → Host.Outcome State Fault Refusal
  | 0, s => .next s
  | k + 1, s =>
    match step s with
    | .next t => runCalls k t
    | .fault r => .fault r
    | .refused r => .refused r

/-- What a call leaves alone: the calling context, the input ports, the script, and FLAGS of every other context. -/
def CallFrame (s t : State) : Prop :=
  t.ctx = s.ctx ∧ t.cmd = s.cmd ∧ t.src = s.src ∧ t.dest = s.dest ∧ t.script = s.script
    ∧ ∀ c, c ≠ s.ctx → t.flagsOf c = s.flagsOf c

/-- What a call of a defined command does, from the state `s` to the state `t`: it drives `result`, it leaves the calling
context's FLAGS at `f` and shows them on `flags_out`, it marks the flags it wrote, it drives `dbz` and keeps `ill` at
0, and it leaves alone what `CallFrame` names. -/
def CallEffect (s t : State) (result : Port) (f : Flags) (we : FlagBus) (dbz : Bool) : Prop :=
  t.out = { result := result, flagsOut := toBus f, flagsWe := we, ill := false, dbz := dbz }
    ∧ t.flags = f ∧ CallFrame s t

/-- The flag masks some call drives (10_state.md R13). -/
def flagMasks : List FlagBus :=
  [0b11111, 0b11000, 0b00000, 0b00111, 0b10111]

/-- The output ports hold what some call can drive: never `ill` with `dbz` (60_exceptions.md R104), a zero result and
no flag written with either (R101, R102), and one of the five masks of 10_state.md R13. -/
def Outputs.legal (o : Outputs) : Prop :=
  ¬(o.ill = true ∧ o.dbz = true) ∧ (o.ill = true ∨ o.dbz = true → o.result = 0 ∧ o.flagsWe = 0) ∧ o.flagsWe ∈ flagMasks

/-- The invariant of the machine: FLAGS of all contexts are in canonical form and the outputs are legal. -/
def State.Inv (s : State) : Prop :=
  bankWf s.bank = true ∧ s.out.legal

/-- The context an act of the caller is for. -/
def CallerAct.ctx : CallerAct → Nat
  | .call c => c.ctx
  | .writeFlags c _ => c

/-- The act is a call. -/
def CallerAct.isCall : CallerAct → Bool
  | .call _ => true
  | .writeFlags _ _ => false

/-- The call now on the input ports. -/
def State.callOnPorts (s : State) : Call :=
  { ctx := s.ctx, cmd := s.cmd, src := s.src, dest := s.dest }

/-- All the caller does from now on: the call on the ports, then its script. -/
def State.acts (s : State) : List CallerAct :=
  .call s.callOnPorts :: s.script

/-- FLAGS of one context after that context's own acts, threaded from each to the next (20_memory.md R25). -/
def flagsAfter : Flags → List CallerAct → Flags
  | f, [] => f
  | f, .call c :: rest => flagsAfter (ofBus (blockOutputs c.cmd c.src c.dest f).flagsOut) rest
  | _, .writeFlags _ f :: rest => flagsAfter f rest

/-- The `result` values of the next `k` calls. -/
def results : Nat → State → List Port
  | 0, _ => []
  | k + 1, s =>
    match step s with
    | .next t => t.out.result :: results k t
    | .fault _ => []
    | .refused _ => []

/-- The number whose `W`-bit words are the low `W` bits of the given ports, least significant word first. -/
def multiword (w : Width) : List Port → Nat
  | [] => 0
  | p :: rest => p.toNat % 2 ^ w.bits + 2 ^ w.bits * multiword w rest

/-- The operations of the divide family (43_div_family.md). -/
def isDivide : Instr → Bool
  | .div _ | .idiv _ | .mod _ | .imod _ => true
  | .add _ | .adc _ | .sub _ | .sbb _ | .mul _ | .imul _ | .and _ | .or _ | .xor _ | .shl _ | .shr _ | .sar _
  | .sal _ => false

/-- The operations that read CF (10_state.md R13). -/
def readsCF : Instr → Bool
  | .adc _ | .sbb _ => true
  | .add _ | .sub _ | .mul _ | .imul _ | .div _ | .idiv _ | .mod _ | .imod _ | .and _ | .or _ | .xor _ | .shl _
  | .shr _ | .sar _ | .sal _ => false

/-- The effective divisor is zero (43_div_family.md R75): the masked `src` for DIV and MOD, all of it for IDIV and
IMOD. -/
def zeroDivisor (src : Port) : Instr → Bool
  | .div w | .mod w => src.toNat % 2 ^ w.bits == 0
  | .idiv _ | .imod _ => src == 0
  | .add _ | .adc _ | .sub _ | .sbb _ | .mul _ | .imul _ | .and _ | .or _ | .xor _ | .shl _ | .shr _ | .sar _
  | .sal _ => false

end Sys2Proof.Machine
end

