-- ==== Sys2Proof/Certificates/Slice0/Obligations.lean ====
section
/-! DEFINITION. The statements for the provers, in the order of OBLIGATIONS.json.

`W` of the rules is `w.bits`. A port's low `W` bits as a number are written out as `p.toNat % 2 ^ w.bits`, so that the
instructions' statements do not rest on the model's own normalizer. -/

open Sys2Proof Sys2Proof.Machine

/-! ### The width normalizer and the flag deriver -/

/-- R40: unsigned normalisation, its range, and the mask it equals. -/
def Obligations.UnsignedNormalisationIsMasking : Prop :=
  (2 ^ Width.w8.bits - 1 = 0xFF ∧ 2 ^ Width.w16.bits - 1 = 0xFFFF ∧ 2 ^ Width.w32.bits - 1 = 0xFFFFFFFF) ∧
  ∀ (v : Port) (w : Width),
    normU v w = v.toNat % 2 ^ w.bits ∧
    normU v w = (v.extractLsb' 0 w.bits).toNat ∧
    normU v w < 2 ^ w.bits ∧
    BitVec.ofNat 64 (normU v w) = v &&& BitVec.ofNat 64 (2 ^ w.bits - 1)

/-- R41: signed normalisation, its range, and the sign extension it equals as a 64-bit vector. -/
def Obligations.SignedNormalisationIsSignExtension : Prop :=
  ∀ (v : Port) (w : Width),
    normS v w = (v.extractLsb' 0 w.bits).toInt ∧
    normS v w = (if v.toNat % 2 ^ w.bits < 2 ^ (w.bits - 1) then ((v.toNat % 2 ^ w.bits : Nat) : Int)
      else ((v.toNat % 2 ^ w.bits : Nat) : Int) - 2 ^ w.bits) ∧
    -(2 : Int) ^ (w.bits - 1) ≤ normS v w ∧ normS v w < 2 ^ (w.bits - 1) ∧
    BitVec.ofInt 64 (normS v w) = (v.extractLsb' 0 w.bits).signExtend 64

/-- R45, R46, R47: ZF, SF and PF of a normalised result; PF in the counting form and in the exclusive-or form. -/
def Obligations.ZeroSignParityOfResult : Prop :=
  ∀ (w : Width) (r : Nat), r < 2 ^ w.bits →
    (zfOf r = true ↔ r = 0) ∧
    (sfOf r w = true ↔ 2 ^ (w.bits - 1) ≤ r) ∧ sfOf r w = (BitVec.ofNat w.bits r).msb ∧
    (pfOf r = true ↔ ((List.range 8).filter (fun i => r.testBit i)).length ∈ [0, 2, 4, 6, 8]) ∧
    pfOf r = (true ^^ r.testBit 0 ^^ r.testBit 1 ^^ r.testBit 2 ^^ r.testBit 3 ^^ r.testBit 4 ^^ r.testBit 5
      ^^ r.testBit 6 ^^ r.testBit 7)

/-- The carry of an addition, from the exact sum and in the source's comparison form (40_width_normalizer_flag_deriver.md
section 2).  The last clause, for `c = 0`, is an inference the spec marks as its own. -/
def Obligations.AdditionCarryInBothForms : Prop :=
  ∀ (w : Width) (d v c : Nat), d < 2 ^ w.bits → v < 2 ^ w.bits → c ≤ 1 →
    let pre := (d + v) % 2 ^ w.bits
    let r := (pre + c) % 2 ^ w.bits
    (cfAdd d v c w = true ↔ 2 ^ w.bits ≤ d + v + c) ∧
    (cfAdd d v c w = true ↔ pre < v ∨ r < pre) ∧
    (c = 0 → (cfAdd d v c w = true ↔ r < v) ∧ (r < v ↔ r < d))

/-- R49: the borrow of a subtraction, from the exact difference and in the source's comparison form; `s + b` is not
wrapped. -/
def Obligations.SubtractionBorrowInBothForms : Prop :=
  ∀ (w : Width) (d v b : Nat), d < 2 ^ w.bits → v < 2 ^ w.bits → b ≤ 1 →
    let pre : Int := ((d : Int) - v) % 2 ^ w.bits
    let r : Int := (pre - b) % 2 ^ w.bits
    (cfSub d v b w = true ↔ (d : Int) - v - b < 0) ∧
    (cfSub d v b w = true ↔ d < v + b) ∧
    (cfSub d v b w = true ↔ d < v ∨ pre < r) ∧
    (pre < r ↔ pre = 0 ∧ b = 1) ∧
    (v = 2 ^ w.bits - 1 → b = 1 → cfSub d v b w = true)

/-- R55: CF and OF of ADD, ADC, SUB, SBB and MUL are those of the un-truncated result. -/
def Obligations.FlagsAgreeWithUntruncatedArithmetic : Prop :=
  ∀ (w : Width) (s : State),
    let d : Int := (s.dest.setWidth w.bits).toNat
    let v : Int := (s.src.setWidth w.bits).toNat
    let x : Int := (s.dest.setWidth w.bits).toInt
    let y : Int := (s.src.setWidth w.bits).toInt
    let c : Int := s.flags.cf.toNat
    let outside : Int → Prop := fun z => z < -2 ^ (w.bits - 1) ∨ 2 ^ (w.bits - 1) ≤ z
    (∃ t, exec (.add w) s = .next t ∧ (t.flags.cf = true ↔ 2 ^ w.bits ≤ d + v) ∧
      (t.flags.of = true ↔ outside (x + y))) ∧
    (∃ t, exec (.adc w) s = .next t ∧ (t.flags.cf = true ↔ 2 ^ w.bits ≤ d + v + c) ∧
      (t.flags.of = true ↔ outside (x + y + c))) ∧
    (∃ t, exec (.sub w) s = .next t ∧ (t.flags.cf = true ↔ d - v < 0) ∧ (t.flags.of = true ↔ outside (x - y))) ∧
    (∃ t, exec (.sbb w) s = .next t ∧ (t.flags.cf = true ↔ d - v - c < 0) ∧
      (t.flags.of = true ↔ outside (x - y - c))) ∧
    (∃ t, exec (.mul w) s = .next t ∧ (t.flags.cf = true ↔ 2 ^ w.bits ≤ d * v) ∧
      (t.flags.of = true ↔ 2 ^ w.bits ≤ d * v))

/-- R53: the carry of each shift is taken from the value shifted by one less, with the exact power of two; for count 0
no carry is derived. -/
def Obligations.ShiftCarryFromOneShiftLess : Prop :=
  ∀ (w : Width) (dest : Port) (n : Nat),
    let d := dest.toNat % 2 ^ w.bits
    let x := normS dest w
    (1 ≤ n → cfShl d n w = (d * 2 ^ (n - 1) % 2 ^ w.bits).testBit (w.bits - 1) ∧
      cfShr d n w = (d / 2 ^ (n - 1)).testBit 0 ∧
      (cfSar x n w = true ↔ x / 2 ^ (n - 1) % 2 = 1)) ∧
    (n = 1 → cfShl d n w = d.testBit (w.bits - 1)) ∧
    (n = 0 → ∀ (b : Bool) (r : Nat), (writesShift n b r w).cf = none)

/-- The closed forms of R53, which the spec marks as its own inference: bit `W-n` or `n-1`, and beyond the width 0 or
the sign. -/
def Obligations.ShiftCarryClosedForms : Prop :=
  ∀ (w : Width) (dest : Port) (n : Nat), 1 ≤ n →
    let d := dest.toNat % 2 ^ w.bits
    let x := normS dest w
    (n ≤ w.bits → cfShl d n w = d.testBit (w.bits - n) ∧ cfShr d n w = d.testBit (n - 1) ∧
      cfSar x n w = d.testBit (n - 1)) ∧
    (w.bits < n → cfShl d n w = false ∧ cfShr d n w = false ∧ cfSar x n w = d.testBit (w.bits - 1))

/-! ### The add and subtract family -/

/-- R61.  (The zero upper bits of `result` are also decision D15, log 14.) -/
def Obligations.AddResultFlagsAndFrame : Prop :=
  ∀ (w : Width) (s : State),
    let d := s.dest.toNat % 2 ^ w.bits
    let v := s.src.toNat % 2 ^ w.bits
    let r := (d + v) % 2 ^ w.bits
    encode (.add w) = 0x00 + (wselCode w).setWidth 7 ∧
    ∃ t, exec (.add w) s = .next t ∧ CallEffect s t (BitVec.ofNat 64 r)
      { cf := decide (2 ^ w.bits ≤ d + v)
        of := d.testBit (w.bits - 1) == v.testBit (w.bits - 1) && r.testBit (w.bits - 1) != d.testBit (w.bits - 1)
        sf := r.testBit (w.bits - 1)
        zf := decide (r = 0)
        pf := pfOf r } 0b11111 false

/-- R62: as ADD, with CF before the call added before truncation. -/
def Obligations.AdcResultFlagsAndFrame : Prop :=
  ∀ (w : Width) (s : State),
    let d := s.dest.toNat % 2 ^ w.bits
    let v := s.src.toNat % 2 ^ w.bits
    let c := s.flags.cf.toNat
    let r := (d + v + c) % 2 ^ w.bits
    encode (.adc w) = 0x04 + (wselCode w).setWidth 7 ∧
    ∃ t, exec (.adc w) s = .next t ∧ CallEffect s t (BitVec.ofNat 64 r)
      { cf := decide (2 ^ w.bits ≤ d + v + c)
        of := d.testBit (w.bits - 1) == v.testBit (w.bits - 1) && r.testBit (w.bits - 1) != d.testBit (w.bits - 1)
        sf := r.testBit (w.bits - 1)
        zf := decide (r = 0)
        pf := pfOf r } 0b11111 false

/-- R63: `dest` is the minuend and `src` the subtrahend. -/
def Obligations.SubResultFlagsAndFrame : Prop :=
  ∀ (w : Width) (s : State),
    let d := s.dest.toNat % 2 ^ w.bits
    let v := s.src.toNat % 2 ^ w.bits
    let r := (((d : Int) - v) % 2 ^ w.bits).toNat
    encode (.sub w) = 0x08 + (wselCode w).setWidth 7 ∧
    ∃ t, exec (.sub w) s = .next t ∧ CallEffect s t (BitVec.ofNat 64 r)
      { cf := decide ((d : Int) - v < 0)
        of := d.testBit (w.bits - 1) != v.testBit (w.bits - 1) && r.testBit (w.bits - 1) != d.testBit (w.bits - 1)
        sf := r.testBit (w.bits - 1)
        zf := decide (r = 0)
        pf := pfOf r } 0b11111 false

/-- R64: as SUB, with CF before the call subtracted before truncation. -/
def Obligations.SbbResultFlagsAndFrame : Prop :=
  ∀ (w : Width) (s : State),
    let d := s.dest.toNat % 2 ^ w.bits
    let v := s.src.toNat % 2 ^ w.bits
    let b := s.flags.cf.toNat
    let r := (((d : Int) - v - b) % 2 ^ w.bits).toNat
    encode (.sbb w) = 0x0C + (wselCode w).setWidth 7 ∧
    ∃ t, exec (.sbb w) s = .next t ∧ CallEffect s t (BitVec.ofNat 64 r)
      { cf := decide ((d : Int) - v - b < 0)
        of := d.testBit (w.bits - 1) != v.testBit (w.bits - 1) && r.testBit (w.bits - 1) != d.testBit (w.bits - 1)
        sf := r.testBit (w.bits - 1)
        zf := decide (r = 0)
        pf := pfOf r } 0b11111 false

/-! ### Multiply and divide -/

/-- R70: the whole product; CF and OF together; SF, ZF and PF as before. -/
def Obligations.MulResultFlagsAndFrame : Prop :=
  ∀ (w : Width) (s : State),
    let d := s.dest.toNat % 2 ^ w.bits
    let v := s.src.toNat % 2 ^ w.bits
    encode (.mul w) = 0x20 + (wselCode w).setWidth 7 ∧
    d * v < 2 ^ 64 ∧
    ∃ t, exec (.mul w) s = .next t ∧ CallEffect s t (BitVec.ofNat 64 (d * v))
      { s.flags with cf := decide (2 ^ w.bits ≤ d * v), of := decide (2 ^ w.bits ≤ d * v) } 0b11000 false

/-- IMUL: the exact signed product in 64 bits, no flag.  That both operands are narrowed at every width is decision
D16 (log 15). -/
def Obligations.ImulResultFlagsAndFrame : Prop :=
  ∀ (w : Width) (s : State),
    let p := (s.dest.setWidth w.bits).toInt * (s.src.setWidth w.bits).toInt
    encode (.imul w) = 0x24 + (wselCode w).setWidth 7 ∧
    ∃ t, exec (.imul w) s = .next t ∧ CallEffect s t (BitVec.ofInt 64 p) s.flags 0b00000 false ∧
      t.out.result.toInt = p

/-- DIV.  The unmasked dividend and the masked divisor are decision D19 (log 18), the cut quotient is D18 (log 17), the
zero result with `dbz` is D9 (log 8). -/
def Obligations.DivResultFlagsAndFrame : Prop :=
  ∀ (w : Width) (s : State),
    let n := s.dest.toNat
    let v := s.src.toNat % 2 ^ w.bits
    encode (.div w) = 0x28 + (wselCode w).setWidth 7 ∧
    (v ≠ 0 → ∃ t, exec (.div w) s = .next t ∧
      CallEffect s t (BitVec.ofNat 64 (n / v % 2 ^ w.bits)) s.flags 0b00000 false) ∧
    (v = 0 → ∃ t, exec (.div w) s = .next t ∧ CallEffect s t 0 s.flags 0b00000 true)

/-- IDIV.  Rounding toward zero is decision D17 (log 16), the cut quotient D18 (log 17), the sign extension D15 (log 14),
the zero result with `dbz` D9 (log 8). -/
def Obligations.IdivResultFlagsAndFrame : Prop :=
  ∀ (w : Width) (s : State),
    let n := s.dest.toInt
    let v := s.src.toInt
    encode (.idiv w) = 0x2C + (wselCode w).setWidth 7 ∧
    (v ≠ 0 → ∃ t, exec (.idiv w) s = .next t ∧
      CallEffect s t ((BitVec.ofInt w.bits (n.tdiv v)).signExtend 64) s.flags 0b00000 false) ∧
    (v = 0 → ∃ t, exec (.idiv w) s = .next t ∧ CallEffect s t 0 s.flags 0b00000 true)

/-- MOD.  Decisions D19 and D20 (log 18) and D9 (log 8). -/
def Obligations.ModResultFlagsAndFrame : Prop :=
  ∀ (w : Width) (s : State),
    let n := s.dest.toNat
    let v := s.src.toNat % 2 ^ w.bits
    encode (.mod w) = 0x30 + (wselCode w).setWidth 7 ∧
    (v ≠ 0 → ∃ t, exec (.mod w) s = .next t ∧ CallEffect s t (BitVec.ofNat 64 (n % v)) s.flags 0b00000 false) ∧
    (v = 0 → ∃ t, exec (.mod w) s = .next t ∧ CallEffect s t 0 s.flags 0b00000 true)

/-- IMOD: the remainder follows the dividend.  Decisions D17 (log 16), D18 (log 17), D15 (log 14), D20 (log 18) and D9
(log 8). -/
def Obligations.ImodResultFlagsAndFrame : Prop :=
  ∀ (w : Width) (s : State),
    let n := s.dest.toInt
    let v := s.src.toInt
    encode (.imod w) = 0x34 + (wselCode w).setWidth 7 ∧
    (v ≠ 0 → ∃ t, exec (.imod w) s = .next t ∧
      CallEffect s t ((BitVec.ofInt w.bits (n.tmod v)).signExtend 64) s.flags 0b00000 false) ∧
    (v = 0 → ∃ t, exec (.imod w) s = .next t ∧ CallEffect s t 0 s.flags 0b00000 true)

/-- The identities of exact division at every sign combination, and that the results show the low `W` bits of the exact
quotient and remainder.  Decision D17 (log 16). -/
def Obligations.DivisionIdentities : Prop :=
  ∀ (w : Width) (s : State),
    (s.src.toNat % 2 ^ w.bits ≠ 0 → ∃ t u, exec (.div w) s = .next t ∧ exec (.mod w) s = .next u ∧
      ∃ q m : Nat, s.dest.toNat = s.src.toNat % 2 ^ w.bits * q + m ∧ m < s.src.toNat % 2 ^ w.bits ∧
        t.out.result.setWidth w.bits = BitVec.ofNat w.bits q ∧ u.out.result = BitVec.ofNat 64 m) ∧
    (s.src ≠ 0 → ∃ t u, exec (.idiv w) s = .next t ∧ exec (.imod w) s = .next u ∧
      ∃ q m : Int, s.dest.toInt = s.src.toInt * q + m ∧ |m| < |s.src.toInt| ∧
        (m = 0 ∨ (m < 0 ↔ s.dest.toInt < 0)) ∧
        (q < 0 ↔ (s.dest.toInt < 0 ↔ ¬s.src.toInt < 0) ∧ |s.src.toInt| ≤ |s.dest.toInt|) ∧
        t.out.result.setWidth w.bits = BitVec.ofInt w.bits q ∧ u.out.result.setWidth w.bits = BitVec.ofInt w.bits m)

/-- R72: DIV of a MUL's `result` by the same nonzero factor gives the other factor back. -/
def Obligations.DivideUndoesMultiply : Prop :=
  ∀ (w : Width) (s : State), s.src.toNat % 2 ^ w.bits ≠ 0 →
    ∃ t u, exec (.mul w) s = .next t ∧ exec (.div w) { t with dest := t.out.result } = .next u ∧
      u.out.result = BitVec.ofNat 64 (s.dest.toNat % 2 ^ w.bits) ∧ u.out.dbz = false

/-- The low `W` bits of IMUL and MUL are the same (42_mul_family.md section 2). -/
def Obligations.SignedAndUnsignedProductsShareLowHalf : Prop :=
  ∀ (w : Width) (s : State), ∃ t u, exec (.mul w) s = .next t ∧ exec (.imul w) s = .next u ∧
    t.out.result.setWidth w.bits = u.out.result.setWidth w.bits

/-! ### Logic and shifts -/

/-- R86, R87, R88: each bit of the result is the Boolean function of the operands' bits; CF and OF as before.  (That CF
and OF pass through is also decision D14, log 13.) -/
def Obligations.LogicResultFlagsAndFrame : Prop :=
  ∀ (w : Width) (s : State),
    let d := s.dest.setWidth w.bits
    let v := s.src.setWidth w.bits
    let effect : State → BitVec w.bits → Prop := fun t r =>
      CallEffect s t (r.setWidth 64)
        { s.flags with sf := r.msb, zf := decide (r = 0#w.bits), pf := pfOf r.toNat } 0b00111 false
    (encode (.and w) = 0x40 + (wselCode w).setWidth 7 ∧ encode (.or w) = 0x44 + (wselCode w).setWidth 7 ∧
      encode (.xor w) = 0x48 + (wselCode w).setWidth 7) ∧
    (∃ t, exec (.and w) s = .next t ∧ effect t (d &&& v)) ∧
    (∃ t, exec (.or w) s = .next t ∧ effect t (d ||| v)) ∧
    (∃ t, exec (.xor w) s = .next t ∧ effect t (d ^^^ v))

/-- SHL with the exact power of two, for every count.  The count's range is decision D21, counts of `W` or more are D13
(log 12), CF at count 0 is D12 (log 11), OF passes through by D22 (log 13). -/
def Obligations.ShlResultFlagsAndFrame : Prop :=
  ∀ (w : Width) (s : State),
    let d := s.dest.toNat % 2 ^ w.bits
    let n := s.src.toNat % 2 ^ w.bits
    let r := d * 2 ^ n % 2 ^ w.bits
    encode (.shl w) = 0x60 + (wselCode w).setWidth 7 ∧
    ∃ t, exec (.shl w) s = .next t ∧ CallEffect s t (BitVec.ofNat 64 r)
      { s.flags with
        cf := if n = 0 then s.flags.cf else (d * 2 ^ (n - 1) % 2 ^ w.bits).testBit (w.bits - 1)
        sf := r.testBit (w.bits - 1)
        zf := decide (r = 0)
        pf := pfOf r } (if n = 0 then 0b00111 else 0b10111) false

/-- SHR with the exact power of two, for every count.  Decisions as for SHL. -/
def Obligations.ShrResultFlagsAndFrame : Prop :=
  ∀ (w : Width) (s : State),
    let d := s.dest.toNat % 2 ^ w.bits
    let n := s.src.toNat % 2 ^ w.bits
    let r := d / 2 ^ n
    encode (.shr w) = 0x64 + (wselCode w).setWidth 7 ∧
    ∃ t, exec (.shr w) s = .next t ∧ CallEffect s t (BitVec.ofNat 64 r)
      { s.flags with
        cf := if n = 0 then s.flags.cf else (d / 2 ^ (n - 1)).testBit 0
        sf := r.testBit (w.bits - 1)
        zf := decide (r = 0)
        pf := pfOf r } (if n = 0 then 0b00111 else 0b10111) false

/-- SAR with the exact power of two, for every count, rounding toward minus infinity.  Decisions as for SHL. -/
def Obligations.SarResultFlagsAndFrame : Prop :=
  ∀ (w : Width) (s : State),
    let x := (s.dest.setWidth w.bits).toInt
    let n := s.src.toNat % 2 ^ w.bits
    let r := ((x / 2 ^ n) % 2 ^ w.bits).toNat
    encode (.sar w) = 0x68 + (wselCode w).setWidth 7 ∧
    ∃ t, exec (.sar w) s = .next t ∧ CallEffect s t (BitVec.ofNat 64 r)
      { s.flags with
        cf := if n = 0 then s.flags.cf else decide (x / 2 ^ (n - 1) % 2 = 1)
        sf := (s.dest.setWidth w.bits).msb
        zf := decide (r = 0)
        pf := pfOf r } (if n = 0 then 0b00111 else 0b10111) false

/-- R94: SAL completes, and exactly as SHL does. -/
def Obligations.SalIsIdenticalToShl : Prop :=
  ∀ (w : Width) (s : State),
    encode (.sal w) = 0x6C + (wselCode w).setWidth 7 ∧
    ∃ t, exec (.sal w) s = .next t ∧ exec (.shl w) s = .next t

/-- A shift by count 0 gives the value back, writes SF, ZF and PF, and leaves CF and OF.  Decision D12 (log 11). -/
def Obligations.ShiftByZeroKeepsCarry : Prop :=
  ∀ (w : Width) (s : State), s.src.toNat % 2 ^ w.bits = 0 →
    ∀ i ∈ [Instr.shl w, Instr.shr w, Instr.sar w, Instr.sal w],
      let r := s.dest.toNat % 2 ^ w.bits
      ∃ t, exec i s = .next t ∧ CallEffect s t (BitVec.ofNat 64 r)
        { s.flags with sf := r.testBit (w.bits - 1), zf := decide (r = 0), pf := pfOf r } 0b00111 false

/-- The outcomes of a count of `W` or more.  Decision D13 (log 12). -/
def Obligations.ShiftByWidthOrMore : Prop :=
  ∀ (w : Width) (s : State),
    let d := s.dest.toNat % 2 ^ w.bits
    let n := s.src.toNat % 2 ^ w.bits
    w.bits ≤ n →
      (∀ i ∈ [Instr.shl w, Instr.sal w], ∃ t, exec i s = .next t ∧ CallEffect s t 0
        { s.flags with cf := decide (n = w.bits) && d.testBit 0, sf := false, zf := true, pf := true } 0b10111 false) ∧
      (∃ t, exec (.shr w) s = .next t ∧ CallEffect s t 0
        { s.flags with cf := decide (n = w.bits) && d.testBit (w.bits - 1), sf := false, zf := true, pf := true }
        0b10111 false) ∧
      (d.testBit (w.bits - 1) = false → ∃ t, exec (.sar w) s = .next t ∧ CallEffect s t 0
        { s.flags with cf := false, sf := false, zf := true, pf := true } 0b10111 false) ∧
      (d.testBit (w.bits - 1) = true → ∃ t, exec (.sar w) s = .next t ∧
        CallEffect s t (BitVec.ofNat 64 (2 ^ w.bits - 1))
          { s.flags with cf := true, sf := true, zf := false, pf := true } 0b10111 false)

/-! ### Laws over several operations -/

/-- Agreement with `W`-bit machine arithmetic as Lean's own bit vectors define it: the low `W` bits of the results of ADD,
ADC, SUB, SBB, MUL, SHL, SHR and SAR, CF of ADD, ADC, SUB and MUL, and OF of ADD and SUB. -/
def Obligations.OperationsAreMachineArithmetic : Prop :=
  ∀ (w : Width) (s : State),
    let d := s.dest.setWidth w.bits
    let v := s.src.setWidth w.bits
    let low : State → BitVec w.bits := fun t => t.out.result.setWidth w.bits
    (∃ t, exec (.add w) s = .next t ∧ low t = d + v ∧ t.flags.cf = d.uaddOverflow v ∧ t.flags.of = d.saddOverflow v) ∧
    (∃ t, exec (.adc w) s = .next t ∧ low t = d + v + BitVec.ofNat w.bits s.flags.cf.toNat ∧
      t.flags.cf = BitVec.carry w.bits d v s.flags.cf) ∧
    (∃ t, exec (.sub w) s = .next t ∧ low t = d - v ∧ t.flags.cf = d.usubOverflow v ∧ t.flags.of = d.ssubOverflow v) ∧
    (∃ t, exec (.sbb w) s = .next t ∧ low t = d - v - BitVec.ofNat w.bits s.flags.cf.toNat) ∧
    (∃ t, exec (.mul w) s = .next t ∧ low t = d * v ∧ t.flags.cf = d.umulOverflow v) ∧
    (∃ t, exec (.shl w) s = .next t ∧ low t = d <<< v.toNat) ∧
    (∃ t, exec (.shr w) s = .next t ∧ low t = d >>> v.toNat) ∧
    (∃ t, exec (.sar w) s = .next t ∧ low t = d.sshiftRight v.toNat)

/-- R65: SUB undoes ADD, and ADC with CF = 1 gives the `result` of two ADDs, while in the double-carry case of width 8
the last CF differs. -/
def Obligations.InverseAndCarryPropagation : Prop :=
  (∀ (w : Width) (s : State), ∃ t u, exec (.add w) s = .next t ∧
    exec (.sub w) { t with dest := t.out.result } = .next u ∧
    u.out.result = BitVec.ofNat 64 (s.dest.toNat % 2 ^ w.bits)) ∧
  (∀ (w : Width) (s : State), s.flags.cf = true → ∃ t u x, exec (.adc w) s = .next t ∧
    exec (.add w) { s with dest := 1 } = .next u ∧
    exec (.add w) { u with src := u.out.result, dest := s.dest } = .next x ∧
    t.out.result = x.out.result ∧
    (w = .w8 → s.src = 0xFF → s.dest = 0xFF →
      t.out.result = 0xFF ∧ t.flags.cf = true ∧ x.out.result = 0xFF ∧ x.flags.cf = false))

/-- Which flags each operation writes, for every instruction.  Decisions D12 (log 11) and D22 (log 13). -/
def Obligations.FlagWriteMaskOfEachOperation : Prop :=
  ∀ (i : Instr) (s : State), ∃ t, exec i s = .next t ∧ t.out.ill = false ∧ t.out.flagsWe =
    (match i with
    | .add _ | .adc _ | .sub _ | .sbb _ => 0b11111
    | .mul _ => 0b11000
    | .imul _ | .div _ | .idiv _ | .mod _ | .imod _ => 0b00000
    | .and _ | .or _ | .xor _ => 0b00111
    | .shl w | .shr w | .sar w | .sal w => if s.src.toNat % 2 ^ w.bits = 0 then 0b00111 else 0b10111)

/-- An owned flag depends on the call's inputs only, an unowned one keeps its value, and of the old flags only CF is
read, by ADC and SBB (10_state.md sections 1 and 3; the pass-through is decision D22, log 13). -/
def Obligations.OwnedFlagsOverwrittenOthersKept : Prop :=
  ∀ (i : Instr) (s₁ s₂ t₁ t₂ : State), s₁.src = s₂.src → s₁.dest = s₂.dest →
    (readsCF i = true → s₁.flags.cf = s₂.flags.cf) → exec i s₁ = .next t₁ → exec i s₂ = .next t₂ →
    t₁.out.result = t₂.out.result ∧ t₁.out.flagsWe = t₂.out.flagsWe ∧ t₁.out.dbz = t₂.out.dbz ∧
    ∀ j, j < 5 →
      (t₁.out.flagsWe.getLsbD j = true → t₁.out.flagsOut.getLsbD j = t₂.out.flagsOut.getLsbD j) ∧
      (t₁.out.flagsWe.getLsbD j = false → t₁.out.flagsOut.getLsbD j = s₁.flagsIn.getLsbD j)

/-- R43: outside the divide family, bits 63 to `W` of `src` and `dest` have no effect on any output. -/
def Obligations.UpperOperandBitsAreIgnored : Prop :=
  ∀ (i : Instr) (s₁ s₂ : State), isDivide i = false → s₁.flags = s₂.flags →
    s₁.src.setWidth i.width.bits = s₂.src.setWidth i.width.bits →
    s₁.dest.setWidth i.width.bits = s₂.dest.setWidth i.width.bits →
    ∃ t₁ t₂, exec i s₁ = .next t₁ ∧ exec i s₂ = .next t₂ ∧ t₁.out = t₂.out

/-- Bits 63 to `W` of `result`: copies of bit `W-1` for IDIV and IMOD, zeros for the others but MUL and IMUL.
Decision D15 (log 14). -/
def Obligations.UpperResultBitsAreFilled : Prop :=
  ∀ (i : Instr) (s : State), ∃ t, exec i s = .next t ∧
    (match i with
    | .mul _ | .imul _ => True
    | .idiv w | .imod w => t.out.result = (t.out.result.setWidth w.bits).signExtend 64
    | .add w | .adc w | .sub w | .sbb w | .div w | .mod w | .and w | .or w | .xor w | .shl w | .shr w | .sar w | .sal w =>
      t.out.result = (t.out.result.setWidth w.bits).setWidth 64)

/-- Calls that do not write CF may stand in a carry chain, and only the add, subtract, multiply and shift operations
write it (70_reset_and_hazards.md section 3; decisions D12 and D22). -/
def Obligations.CarryChainIsUndisturbed : Prop :=
  ∀ (i : Instr) (s : State),
    (match i with
    | .imul _ | .div _ | .idiv _ | .mod _ | .imod _ | .and _ | .or _ | .xor _ => True
    | .shl w | .shr w | .sar w | .sal w => s.src.toNat % 2 ^ w.bits = 0
    | .add _ | .adc _ | .sub _ | .sbb _ | .mul _ => False) →
    ∃ t, exec i s = .next t ∧ t.flags.cf = s.flags.cf ∧ t.flags.of = s.flags.of

/-- After an ADD or a SUB the FLAGS and the outputs are the same whatever FLAGS was before
(70_reset_and_hazards.md section 2, an inference the spec marks as its own). -/
def Obligations.AddAndSubDefineAllFlags : Prop :=
  ∀ (w : Width) (s : State) (f g : Flags), ∀ i ∈ [Instr.add w, Instr.sub w],
    ∃ t u, exec i (s.writeFlags s.ctx f) = .next t ∧ exec i (s.writeFlags s.ctx g) = .next u ∧
      t.flags = u.flags ∧ t.out = u.out ∧ t.out.flagsWe = 0b11111

/-! ### Commands and steps -/

/-- Decoding and encoding are inverse: a command word decodes to an instruction exactly when it is that instruction's
word.  The bits are decisions D4 and D5 (log 19). -/
def Obligations.DecodeAndEncodeAgree : Prop :=
  ∀ (i : Instr) (c : Cmd), i.wellFormed = true ∧ (decode c = .ok i ↔ c = encode i) ∧
    (c = encode i ↔ c &&& 0x7C = (opCode i).setWidth 7 * 4 ∧ c &&& 0x03 = (wselCode i.width).setWidth 7)

/-- A command is rejected exactly when one of its fields is reserved; 77 of the 128 are.  Decision D6 (log 7). -/
def Obligations.ReservedCommandsAreRejected : Prop :=
  (∀ c : Cmd, (∃ r, decode c = .error r) ↔ (fieldsOf c).wellFormed = false) ∧
  (List.range 128).countP (fun n => (decode (BitVec.ofNat 7 n)).toOption.isNone) = 77

/-- Words of each family, written out from the table of 30_encoding.md section 1 (decisions D4 and D5, log 19), and two
reserved words (section 4, decision D6).  The reason the decoder names for a reserved word is the model's own choice
(log 25). -/
def Obligations.TableWordsDecode : Prop :=
  decode 0b0000110 = .ok (.adc .w32) ∧ decode 0b0001101 = .ok (.sbb .w16) ∧ decode 0b0100100 = .ok (.imul .w8) ∧
  decode 0b0101110 = .ok (.idiv .w32) ∧ decode 0b0110001 = .ok (.mod .w16) ∧ decode 0b1001000 = .ok (.xor .w8) ∧
  decode 0b1101010 = .ok (.sar .w32) ∧ decode 0b1101101 = .ok (.sal .w16) ∧
  decode 0b0000011 = .error (.width 0b00000) ∧ decode 0b1110000 = .error (.unassigned 0b11100)

/-- A step runs the decoded instruction and then the caller takes its turn: with nothing left in the script the ports
keep their levels, a call goes to the ports, and a write of FLAGS is done before what follows it.  The script is the
model's own field (log 5), and that one step is one call is log 4. -/
def Obligations.StepRunsDecodedInstruction : Prop :=
  (∀ (s : State) (i : Instr), decode s.cmd = .ok i →
    ∃ t, exec i s = .next t ∧ step s = .next t.callerTurn) ∧
  (∀ s : State, s.script = [] → s.callerTurn = s) ∧
  (∀ (s : State) (c : Call) (rest : List CallerAct), s.script = .call c :: rest →
    s.callerTurn = { s with ctx := c.ctx, cmd := c.cmd, src := c.src, dest := c.dest, script := rest }) ∧
  (∀ (s : State) (c : Nat) (f : Flags) (rest : List CallerAct), s.script = .writeFlags c f :: rest →
    s.callerTurn = ({ s.writeFlags c f with script := rest } : State).callerTurn)

/-- Driving an instruction's word makes the next step run it and changes nothing but the `cmd` port (log 9). -/
def Obligations.FetchedWordIsRunNext : Prop :=
  ∀ (s : State) (i : Instr) (n : Nat),
    decodeTableWord n (encode i).toNat = some i ∧
    s.withFetchWord n (encode i).toNat = { s with cmd := encode i } ∧
    ∃ t, exec i (s.withFetchWord n (encode i).toNat) = .next t ∧
      step (s.withFetchWord n (encode i).toNat) = .next t.callerTurn

/-- A reserved command completes with `ill = 1`, a zero result and no flag written.  Decision D6; that the model's step
goes on is log 7. -/
def Obligations.ReservedCommandWritesNothing : Prop :=
  ∀ (s : State) (r : Reserved), decode s.cmd = .error r →
    ∃ t, step s = .next t.callerTurn ∧ t.flags = s.flags ∧ CallFrame s t ∧
      t.out = { result := 0, flagsOut := s.flagsIn, flagsWe := 0b00000, ill := true, dbz := false }

/-- `ill` is 1 exactly for a reserved command, `dbz` exactly for a divide or remainder with a zero effective divisor;
never both.  Decisions D6 and D9 (logs 7 and 8). -/
def Obligations.StatusOutputsExactly : Prop :=
  ∀ s : State, ∃ t, step s = .next t ∧
    (t.out.ill = true ↔ ∃ r, decode s.cmd = .error r) ∧
    (t.out.dbz = true ↔ ∃ i, decode s.cmd = .ok i ∧ isDivide i = true ∧ zeroDivisor s.src i = true) ∧
    ¬(t.out.ill = true ∧ t.out.dbz = true)

/-- R16: every output is a function of `cmd`, `src`, `dest` and `flags_in` of the same call and of nothing else. -/
def Obligations.OutputsAreFunctionOfInputs : Prop :=
  ∃ f : Cmd → Port → Port → FlagBus → Outputs, ∀ s : State, ∃ t, step s = .next t ∧
    t.out = f s.cmd s.src s.dest s.flagsIn

/-- No call raises an exception or takes a trap: any number of steps from any state is made (00_scope.md section 3,
60_exceptions.md sections 1 and 4).  The model's own choices are that a step goes on at a reserved command (log 7) and
after a zero divisor (log 8), and that with an empty script the call on the ports is made again (log 5). -/
def Obligations.NoCallEverStops : Prop :=
  ∀ (k : Nat) (s : State), ∃ t, runCalls k s = .next t

/-- Every step keeps the invariant: FLAGS of all contexts in canonical form, and legal outputs.  That FLAGS is a list in
canonical form is the model's own choice (log 6). -/
def Obligations.StepKeepsInvariant : Prop :=
  ∀ s t : State, s.Inv → step s = .next t → t.Inv

/-- The invariant holds at reset (the reset values are logs 1 to 3, the canonical form is log 6). -/
def Obligations.InvariantHoldsAtReset : Prop :=
  State.reset.Inv

/-! ### Contexts and sequences of calls -/

/-- The bus order, bit 4 CF to bit 0 PF, and that a bus carries FLAGS exactly.  Decision D8 (log 19). -/
def Obligations.FlagBusCarriesFlags : Prop :=
  (∀ f : Flags, (toBus f).getLsbD 4 = f.cf ∧ (toBus f).getLsbD 3 = f.of ∧ (toBus f).getLsbD 2 = f.sf ∧
    (toBus f).getLsbD 1 = f.zf ∧ (toBus f).getLsbD 0 = f.pf ∧ ofBus (toBus f) = f) ∧
  ∀ b : FlagBus, toBus (ofBus b) = b

/-- Two lists of FLAGS in canonical form that read alike are equal, so equal FLAGS are equal data.  The list and
its canonical form are wholly the model's own choice (log 6). -/
def Obligations.CanonicalFlagsAreUnique : Prop :=
  ∀ a b : List (Nat × Flags), bankWf a = true → bankWf b = true → (∀ c, bankRead a c = bankRead b c) → a = b

/-- FLAGS of a context after all the caller does is FLAGS threaded through that context's own acts, in order: each call
takes the FLAGS the act before it left (20_memory.md section 2, 10_state.md section 5; the script is log 5). -/
def Obligations.FlagsThreadThroughOwnCalls : Prop :=
  ∀ (s : State) (c : Nat), ∃ t, runCalls (1 + s.script.countP CallerAct.isCall) s = .next t ∧
    t.flagsOf c = flagsAfter (s.flagsOf c) (s.acts.filter (fun a => a.ctx == c))

/-- Nothing is shared between contexts: two callers that agree on one context's FLAGS and acts leave that context the
same FLAGS, whatever the other contexts do in between (10_state.md section 5, 60_exceptions.md section 7; contexts are
log 6, the script is log 5). -/
def Obligations.ContextsCannotInterfere : Prop :=
  ∀ (s₁ s₂ t₁ t₂ : State) (c : Nat), s₁.flagsOf c = s₂.flagsOf c →
    s₁.acts.filter (fun a => a.ctx == c) = s₂.acts.filter (fun a => a.ctx == c) →
    runCalls (1 + s₁.script.countP CallerAct.isCall) s₁ = .next t₁ →
    runCalls (1 + s₂.script.countP CallerAct.isCall) s₂ = .next t₂ →
    t₁.flagsOf c = t₂.flagsOf c

/-- A chain ADD, ADC, ADC, ... from the least significant word up adds numbers of any length: the words of the results
with the last carry above them are the exact sum.  A law the spec marks as derived (41_add_sub_family.md section 6); the
script is the model's own (log 5). -/
def Obligations.CarryChainAddsMultiwordNumbers : Prop :=
  ∀ (w : Width) (s : State) (rest : List (Port × Port)), s.cmd = encode (.add w) →
    s.script = rest.map (fun p => .call { ctx := s.ctx, cmd := encode (.adc w), src := p.1, dest := p.2 }) →
    ∃ t, runCalls (rest.length + 1) s = .next t ∧
      multiword w (results (rest.length + 1) s) + 2 ^ (w.bits * (rest.length + 1)) * (t.flagsOf s.ctx).cf.toNat =
        multiword w (s.dest :: rest.map Prod.snd) + multiword w (s.src :: rest.map Prod.fst)

/-- A chain SUB, SBB, SBB, ... subtracts numbers of any length: the words of the results less the last borrow above them
are the exact difference.  A law the spec marks as derived (41_add_sub_family.md section 6); the script is the model's own
(log 5). -/
def Obligations.BorrowChainSubtractsMultiwordNumbers : Prop :=
  ∀ (w : Width) (s : State) (rest : List (Port × Port)), s.cmd = encode (.sub w) →
    s.script = rest.map (fun p => .call { ctx := s.ctx, cmd := encode (.sbb w), src := p.1, dest := p.2 }) →
    ∃ t, runCalls (rest.length + 1) s = .next t ∧
      (multiword w (results (rest.length + 1) s) : Int) - 2 ^ (w.bits * (rest.length + 1)) * (t.flagsOf s.ctx).cf.toNat =
        (multiword w (s.dest :: rest.map Prod.snd) : Int) - multiword w (s.src :: rest.map Prod.fst)
end

