-- ==== Sys2Proof/Laws/State.lean ====
section
/-! SUPPORT. One lemma per field per update of State (true by rfl). -/

namespace Sys2Proof.Machine

variable (s : State) (c : Nat) (f : Flags) (o : Outputs) (k : Call)

@[simp] theorem writeFlags_ctx : (s.writeFlags c f).ctx = s.ctx := rfl
@[simp] theorem writeFlags_bank : (s.writeFlags c f).bank = bankWrite s.bank c f := rfl
@[simp] theorem writeFlags_cmd : (s.writeFlags c f).cmd = s.cmd := rfl
@[simp] theorem writeFlags_src : (s.writeFlags c f).src = s.src := rfl
@[simp] theorem writeFlags_dest : (s.writeFlags c f).dest = s.dest := rfl
@[simp] theorem writeFlags_out : (s.writeFlags c f).out = s.out := rfl
@[simp] theorem writeFlags_script : (s.writeFlags c f).script = s.script := rfl

@[simp] theorem endCall_ctx : (s.endCall o).ctx = s.ctx := rfl
@[simp] theorem endCall_bank : (s.endCall o).bank = bankWrite s.bank s.ctx (ofBus o.flagsOut) := rfl
@[simp] theorem endCall_cmd : (s.endCall o).cmd = s.cmd := rfl
@[simp] theorem endCall_src : (s.endCall o).src = s.src := rfl
@[simp] theorem endCall_dest : (s.endCall o).dest = s.dest := rfl
@[simp] theorem endCall_out : (s.endCall o).out = o := rfl
@[simp] theorem endCall_script : (s.endCall o).script = s.script := rfl

@[simp] theorem present_ctx : (s.present k).ctx = k.ctx := rfl
@[simp] theorem present_bank : (s.present k).bank = s.bank := rfl
@[simp] theorem present_cmd : (s.present k).cmd = k.cmd := rfl
@[simp] theorem present_src : (s.present k).src = k.src := rfl
@[simp] theorem present_dest : (s.present k).dest = k.dest := rfl
@[simp] theorem present_out : (s.present k).out = s.out := rfl
@[simp] theorem present_script : (s.present k).script = s.script := rfl

@[simp] theorem flagsOf_present : (s.present k).flagsOf c = s.flagsOf c := rfl
@[simp] theorem flagsOf_withScript (l : List CallerAct) : ({ s with script := l } : State).flagsOf c = s.flagsOf c := rfl
@[simp] theorem flagsOf_withOperands (a b : Port) :
    ({ s with src := a, dest := b } : State).flagsOf c = s.flagsOf c := rfl
@[simp] theorem flagsOf_withCmd (m : Cmd) : ({ s with cmd := m } : State).flagsOf c = s.flagsOf c := rfl

end Sys2Proof.Machine
end

