-- ==== Sys2Proof/Laws/Bank.lean ====
section
/-! SUPPORT. FLAGS of a context: read after write, other contexts left alone, the canonical form kept. -/

namespace Sys2Proof.Machine

theorem bankRead_eq_start_of_forall_ne {l : List (Nat × Flags)} {c : Nat} (h : ∀ e ∈ l, e.1 ≠ c) :
    bankRead l c = Config.flagsStart := by
  induction l with
  | nil => rfl
  | cons e rest ih =>
    obtain ⟨k, f⟩ := e
    have hk : k ≠ c := h (k, f) List.mem_cons_self
    rw [bankRead, if_neg hk]
    exact ih fun e he => h e (List.mem_cons_of_mem _ he)

theorem bankRead_bankErase_self (l : List (Nat × Flags)) (c : Nat) :
    bankRead (bankErase l c) c = Config.flagsStart :=
  bankRead_eq_start_of_forall_ne (by simp [bankErase])

theorem bankRead_bankErase_other (l : List (Nat × Flags)) {c c' : Nat} (hc : c' ≠ c) :
    bankRead (bankErase l c) c' = bankRead l c' := by
  induction l with
  | nil => rfl
  | cons e rest ih =>
    obtain ⟨k, f⟩ := e
    rw [bankErase] at ih ⊢
    by_cases hk : k = c
    · have hkc' : k ≠ c' := fun h => hc (h.symm.trans hk)
      simpa [hk, bankRead, hkc', Ne.symm hc] using ih
    · simp only [List.filter_cons, bne_iff_ne, ne_eq, hk, not_false_eq_true, if_true, bankRead, ih]

theorem bankRead_bankInsert_self {l : List (Nat × Flags)} {c : Nat} (f : Flags) (h : ∀ e ∈ l, e.1 ≠ c) :
    bankRead (bankInsert l c f) c = f := by
  induction l with
  | nil => simp [bankInsert, bankRead]
  | cons e rest ih =>
    obtain ⟨k, g⟩ := e
    have hk : k ≠ c := h (k, g) List.mem_cons_self
    have hrest := ih fun e he => h e (List.mem_cons_of_mem _ he)
    rw [bankInsert]
    split <;> simp [bankRead, hk, hrest]

theorem bankRead_bankInsert_other (l : List (Nat × Flags)) {c c' : Nat} (hc : c' ≠ c) (f : Flags) :
    bankRead (bankInsert l c f) c' = bankRead l c' := by
  induction l with
  | nil => simp [bankInsert, bankRead, Ne.symm hc]
  | cons e rest ih =>
    obtain ⟨k, g⟩ := e
    rw [bankInsert]
    split
    · simp [bankRead, Ne.symm hc]
    · simp only [bankRead, ih]

/-- Reading after a write to the same context gives what was written. -/
@[simp] theorem bankRead_bankWrite_self (l : List (Nat × Flags)) (c : Nat) (f : Flags) :
    bankRead (bankWrite l c f) c = f := by
  rw [bankWrite]
  split
  · rename_i hf; rw [hf, bankRead_bankErase_self]
  · exact bankRead_bankInsert_self f (by simp [bankErase])

/-- A write leaves every other context alone. -/
theorem bankRead_bankWrite_other (l : List (Nat × Flags)) {c c' : Nat} (hc : c' ≠ c) (f : Flags) :
    bankRead (bankWrite l c f) c' = bankRead l c' := by
  rw [bankWrite]
  split
  · exact bankRead_bankErase_other l hc
  · rw [bankRead_bankInsert_other _ hc, bankRead_bankErase_other l hc]

theorem bankWf_cons {k : Nat} {f : Flags} {rest : List (Nat × Flags)} :
    bankWf ((k, f) :: rest) = true ↔ f ≠ Config.flagsStart ∧ (∀ e ∈ rest, k < e.1) ∧ bankWf rest = true := by
  simp [bankWf, and_assoc]

theorem bankWf_bankErase {l : List (Nat × Flags)} (hl : bankWf l = true) (c : Nat) :
    bankWf (bankErase l c) = true := by
  induction l with
  | nil => rfl
  | cons e rest ih =>
    obtain ⟨k, f⟩ := e
    obtain ⟨hf, habove, hrest⟩ := bankWf_cons.mp hl
    rw [bankErase, List.filter_cons]
    split
    · exact bankWf_cons.mpr ⟨hf, fun e he => habove e (List.mem_of_mem_filter he), ih hrest⟩
    · exact ih hrest

theorem mem_bankInsert {l : List (Nat × Flags)} {c : Nat} {f : Flags} {e : Nat × Flags} :
    e ∈ bankInsert l c f → e = (c, f) ∨ e ∈ l := by
  induction l with
  | nil => simp [bankInsert]
  | cons e' rest ih =>
    obtain ⟨k, g⟩ := e'
    rw [bankInsert]
    split
    · exact fun h => List.mem_cons.mp h
    · intro h
      rcases List.mem_cons.mp h with h | h
      · exact .inr (h ▸ List.mem_cons_self)
      · exact (ih h).imp_right (List.mem_cons_of_mem _)

theorem bankWf_bankInsert {l : List (Nat × Flags)} (hl : bankWf l = true) {c : Nat} {f : Flags}
    (hc : ∀ e ∈ l, e.1 ≠ c) (hf : f ≠ Config.flagsStart) : bankWf (bankInsert l c f) = true := by
  induction l with
  | nil => exact bankWf_cons.mpr ⟨hf, by simp, rfl⟩
  | cons e rest ih =>
    obtain ⟨k, g⟩ := e
    obtain ⟨hg, habove, hrest⟩ := bankWf_cons.mp hl
    have hk : k ≠ c := hc (k, g) List.mem_cons_self
    rw [bankInsert]
    split
    · rename_i hlt
      refine bankWf_cons.mpr ⟨hf, fun e he => ?_, hl⟩
      rcases List.mem_cons.mp he with rfl | he
      · exact hlt
      · exact hlt.trans (habove e he)
    · refine bankWf_cons.mpr ⟨hg, fun e he => ?_, ih hrest fun e he => hc e (List.mem_cons_of_mem _ he)⟩
      rcases mem_bankInsert he with rfl | he
      · show k < c; omega
      · exact habove e he

/-- A write keeps the canonical form. -/
theorem bankWf_bankWrite {l : List (Nat × Flags)} (hl : bankWf l = true) (c : Nat) (f : Flags) :
    bankWf (bankWrite l c f) = true := by
  rw [bankWrite]
  split
  · exact bankWf_bankErase hl c
  · rename_i hf
    exact bankWf_bankInsert (bankWf_bankErase hl c) (by simp [bankErase]) hf

/-- FLAGS after a write, of any context. -/
theorem flagsOf_writeFlags (s : State) (c c' : Nat) (f : Flags) :
    (s.writeFlags c f).flagsOf c' = if c' = c then f else s.flagsOf c' := by
  split
  · rename_i h; subst h; exact bankRead_bankWrite_self s.bank c' f
  · rename_i h; exact bankRead_bankWrite_other s.bank h f

/-- FLAGS of the calling context after a call: `flags_out`. -/
@[simp] theorem flags_endCall (s : State) (o : Outputs) : (s.endCall o).flags = ofBus o.flagsOut :=
  bankRead_bankWrite_self s.bank s.ctx _

/-- FLAGS of any context after a call. -/
theorem flagsOf_endCall (s : State) (o : Outputs) (c : Nat) :
    (s.endCall o).flagsOf c = if c = s.ctx then ofBus o.flagsOut else s.flagsOf c :=
  flagsOf_writeFlags s s.ctx c _

end Sys2Proof.Machine
end

