-- ==== Sys2Proof/Laws/Decode.lean ====
section
/-! SUPPORT. The decoder and the encoder are inverse to each other. -/

namespace Sys2Proof

/-- No bit of an encoding is dropped. -/
@[simp] theorem decode_encode (i : Instr) : decode (encode i) = .ok i := by
  rcases i with w | w | w | w | w | w | w | w | w | w | w | w | w | w | w | w | w <;> cases w <;> decide

/-- A command word that decodes is the encoding of what it decodes to. -/
theorem encode_of_decode {c : Cmd} {i : Instr} (h : decode c = .ok i) : encode i = c := by
  have key : ∀ c : Cmd, (decode c).toOption.all (fun i => encode i == c) = true := by decide
  have hc := key c
  rw [h] at hc
  simpa [Except.toOption] using hc

/-- No two instructions share a command word. -/
theorem encode_injective {i j : Instr} (h : encode i = encode j) : i = j := by
  have hi := decode_encode i
  rw [h, decode_encode] at hi
  exact (Except.ok.inj hi).symm

/-- The syntax admits no ill-formed instruction. -/
theorem wellFormed_all (i : Instr) : i.wellFormed = true := by
  rw [Instr.wellFormed]
  cases i.width <;> decide

end Sys2Proof
end

