-- ==== Sys2Proof/Laws/Flags.lean ====
section
/-! SUPPORT. The flag bus carries FLAGS exactly; what each kind of flag write passes through. -/

namespace Sys2Proof.Machine

@[simp] theorem ofBus_toBus (f : Flags) : ofBus (toBus f) = f := by
  obtain ⟨a, b, c, d, e⟩ := f
  revert a b c d e
  decide

@[simp] theorem toBus_ofBus (b : FlagBus) : toBus (ofBus b) = b := by
  revert b
  decide

theorem toBus_injective {f g : Flags} (h : toBus f = toBus g) : f = g := by
  rw [← ofBus_toBus f, h, ofBus_toBus]

@[simp] theorem passThrough_writesNone (old : Flags) : passThrough writesNone old = old := rfl

@[simp] theorem passThrough_writesAll (cf of : Bool) (r : Nat) (w : Width) (old : Flags) :
    passThrough (writesAll cf of r w) old = { cf := cf, of := of, sf := sfOf r w, zf := zfOf r, pf := pfOf r } := rfl

@[simp] theorem passThrough_writesSZP (r : Nat) (w : Width) (old : Flags) :
    passThrough (writesSZP r w) old = { old with sf := sfOf r w, zf := zfOf r, pf := pfOf r } := rfl

@[simp] theorem passThrough_writesCFOF (b : Bool) (old : Flags) :
    passThrough (writesCFOF b) old = { old with cf := b, of := b } := rfl

@[simp] theorem passThrough_writesShift (n : Nat) (cf : Bool) (r : Nat) (w : Width) (old : Flags) :
    passThrough (writesShift n cf r w) old =
      { old with cf := if n = 0 then old.cf else cf, sf := sfOf r w, zf := zfOf r, pf := pfOf r } := by
  by_cases h : n = 0 <;> simp [writesShift, passThrough, writesSZP, h]

@[simp] theorem writeMask_writesNone : writeMask writesNone = 0b00000 :=
  (by decide : toBus ⟨false, false, false, false, false⟩ = _)

@[simp] theorem writeMask_writesAll (cf of : Bool) (r : Nat) (w : Width) :
    writeMask (writesAll cf of r w) = 0b11111 :=
  (by decide : toBus ⟨true, true, true, true, true⟩ = _)

@[simp] theorem writeMask_writesSZP (r : Nat) (w : Width) : writeMask (writesSZP r w) = 0b00111 :=
  (by decide : toBus ⟨false, false, true, true, true⟩ = _)

@[simp] theorem writeMask_writesCFOF (b : Bool) : writeMask (writesCFOF b) = 0b11000 :=
  (by decide : toBus ⟨true, true, false, false, false⟩ = _)

@[simp] theorem writeMask_writesShift (n : Nat) (cf : Bool) (r : Nat) (w : Width) :
    writeMask (writesShift n cf r w) = if n = 0 then 0b00111 else 0b10111 := by
  by_cases h : n = 0
  · subst h
    exact (by decide : toBus ⟨false, false, true, true, true⟩ = (0b00111 : FlagBus))
  · rw [if_neg h, writesShift, if_neg h]
    exact (by decide : toBus ⟨true, false, true, true, true⟩ = (0b10111 : FlagBus))

end Sys2Proof.Machine
end

