-- ==== Sys2Proof/Laws/Operands.lean ====
section
/-! SUPPORT. The width normalizer: ranges, and agreement with the bit-vector operations of the library. -/

namespace Sys2Proof

theorem Width.bits_pos (w : Width) : 0 < w.bits := by cases w <;> decide

theorem Width.bits_le (w : Width) : w.bits ≤ 32 := by cases w <;> decide

/-- `2^W` is twice the weight of the sign bit. -/
theorem Width.two_pow_bits (w : Width) : 2 ^ w.bits = 2 * 2 ^ (w.bits - 1) := by cases w <;> rfl

namespace Machine

theorem normU_lt (v : Port) (w : Width) : normU v w < 2 ^ w.bits :=
  Nat.mod_lt _ (Nat.two_pow_pos _)

theorem normU_eq_toNat_setWidth (v : Port) (w : Width) : normU v w = (v.setWidth w.bits).toNat := by
  simp [normU]

theorem signedW_eq_toInt {u : Nat} {w : Width} (hu : u < 2 ^ w.bits) :
    signedW u w = (BitVec.ofNat w.bits u).toInt := by
  have h2 := w.two_pow_bits
  rw [signedW, BitVec.toInt_eq_toNat_cond, BitVec.toNat_ofNat, Nat.mod_eq_of_lt hu]
  by_cases h : u < 2 ^ (w.bits - 1)
  · rw [if_pos h, if_pos (by omega)]
  · rw [if_neg h, if_neg (by omega)]
    push_cast
    rfl

theorem normS_eq_toInt_setWidth (v : Port) (w : Width) : normS v w = (v.setWidth w.bits).toInt := by
  rw [normS, signedW_eq_toInt (normU_lt v w), normU_eq_toNat_setWidth, BitVec.ofNat_toNat, BitVec.setWidth_eq]

theorem normS_bounds (v : Port) (w : Width) :
    -(2 : Int) ^ (w.bits - 1) ≤ normS v w ∧ normS v w < 2 ^ (w.bits - 1) := by
  have h2 := w.two_pow_bits
  have hu := normU_lt v w
  rw [h2] at hu
  have hcast : (2 : Int) ^ w.bits = 2 * 2 ^ (w.bits - 1) := by exact_mod_cast h2
  rw [normS, signedW]
  split
  · rename_i h
    have : ((normU v w : Nat) : Int) < 2 ^ (w.bits - 1) := by exact_mod_cast h
    omega
  · rename_i h
    have h' : ((2 : Int) ^ (w.bits - 1)) ≤ normU v w := by exact_mod_cast Nat.le_of_not_lt h
    have hu' : ((normU v w : Nat) : Int) < 2 * 2 ^ (w.bits - 1) := by exact_mod_cast hu
    omega

/-- The signed and the unsigned view are congruent modulo `2^W`. -/
theorem normS_emod (v : Port) (w : Width) : normS v w % 2 ^ w.bits = normU v w := by
  have hu : ((normU v w : Nat) : Int) < 2 ^ w.bits := by exact_mod_cast normU_lt v w
  rw [normS, signedW]
  split
  · exact Int.emod_eq_of_lt (Int.natCast_nonneg _) hu
  · rw [Int.sub_emod_right, Int.emod_eq_of_lt (Int.natCast_nonneg _) hu]

theorem twosW_lt (i : Int) (w : Width) : twosW i w < 2 ^ w.bits := by
  have hpos : (0 : Int) < 2 ^ w.bits := by positivity
  have h1 := Int.emod_nonneg i hpos.ne'
  have h2 := Int.emod_lt_of_pos i hpos
  rw [twosW]
  zify
  rw [Int.toNat_of_nonneg h1]
  exact h2

theorem twosW_cast (i : Int) (w : Width) : (twosW i w : Int) = i % 2 ^ w.bits :=
  Int.toNat_of_nonneg (Int.emod_nonneg i (by positivity))

/-- Widening and reading back is exact for `W` bits. -/
theorem toNat_zext {r : Nat} {w : Width} (hr : r < 2 ^ w.bits) : (zext r).toNat = r := by
  have h : 2 ^ w.bits ≤ 2 ^ 64 := Nat.pow_le_pow_right (by decide) (w.bits_le.trans (by decide))
  rw [zext, BitVec.toNat_ofNat, Nat.mod_eq_of_lt (hr.trans_le h)]

/-- The low `W` bits of a widened number. -/
theorem low_ofNat (r : Nat) (w : Width) : (BitVec.ofNat 64 r).setWidth w.bits = BitVec.ofNat w.bits r :=
  BitVec.setWidth_ofNat_of_le (w.bits_le.trans (by decide)) r

/-- The low `W` bits of a 64-bit two's-complement value. -/
theorem low_ofInt (i : Int) (w : Width) : (BitVec.ofInt 64 i).setWidth w.bits = BitVec.ofInt w.bits i := by
  have hd : 2 ^ w.bits ∣ 2 ^ 64 := Nat.pow_dvd_pow 2 (w.bits_le.trans (by decide))
  apply BitVec.eq_of_toNat_eq
  rw [BitVec.toNat_setWidth, BitVec.toNat_ofInt, BitVec.toNat_ofInt]
  zify
  rw [Int.toNat_of_nonneg (Int.emod_nonneg _ (by norm_num)), Int.toNat_of_nonneg (Int.emod_nonneg _ (by positivity))]
  exact_mod_cast Int.emod_emod_of_dvd i (Int.natCast_dvd_natCast.mpr hd)

theorem ofNat_twosW (i : Int) (w : Width) : BitVec.ofNat w.bits (twosW i w) = BitVec.ofInt w.bits i := by
  apply BitVec.eq_of_toNat_eq
  rw [BitVec.toNat_ofNat, BitVec.toNat_ofInt, Nat.mod_eq_of_lt (twosW_lt i w), twosW]
  push_cast
  rfl

/-- The model's sign extension is the library's. -/
theorem sext_twosW (i : Int) (w : Width) : sext (twosW i w) w = (BitVec.ofInt w.bits i).signExtend 64 := by
  rw [sext, signedW_eq_toInt (twosW_lt i w), ofNat_twosW]
  rfl

/-- Bit `W-1` of a `W`-bit number says whether it is at least `2^(W-1)`. -/
theorem testBit_sign {r : Nat} {w : Width} (hr : r < 2 ^ w.bits) :
    r.testBit (w.bits - 1) = decide (2 ^ (w.bits - 1) ≤ r) := by
  have h2 := w.two_pow_bits
  have hp := Nat.two_pow_pos (w.bits - 1)
  have hlt : r / 2 ^ (w.bits - 1) < 2 := by rw [Nat.div_lt_iff_lt_mul hp]; omega
  rw [Nat.testBit_eq_decide_div_mod_eq, decide_eq_decide, Nat.mod_eq_of_lt hlt]
  have hd := Nat.div_add_mod r (2 ^ (w.bits - 1))
  have hm := Nat.mod_lt r hp
  constructor
  · intro h; rw [h] at hd; omega
  · intro h; have := Nat.div_pos h hp; omega

/-- Bit `W-1` of the low bits is the sign of the signed view. -/
theorem testBit_normU_sign (v : Port) (w : Width) : (normU v w).testBit (w.bits - 1) = decide (normS v w < 0) := by
  have hu := normU_lt v w
  have hcast : (2 : Int) ^ w.bits = ((2 ^ w.bits : Nat) : Int) := by push_cast; rfl
  rw [testBit_sign hu, decide_eq_decide, normS, signedW]
  split <;> omega

end Machine

end Sys2Proof
end

