-- ==== Sys2Proof/Laws/PerInstr.lean ====
section
/-! SUPPORT. A fact about every instruction as syntax: its written call (30_encoding.md R37) is well formed, names it
and no other, and its command word (R30) has two well-formed fields. -/

namespace Sys2Proof.Laws.WrittenForms

/-- The instruction's call and command word are well formed, and the call reads back as the instruction. -/
def Statement (i : Instr) : Prop :=
  (callFormOf i).wellFormed = true ∧ (fieldsOf (encode i)).wellFormed = true ∧ ofCallForm (callFormOf i) = some i

theorem add (w : Width) : Statement (.add w) := by cases w <;> exact ⟨by decide, by decide, by decide⟩
theorem adc (w : Width) : Statement (.adc w) := by cases w <;> exact ⟨by decide, by decide, by decide⟩
theorem sub (w : Width) : Statement (.sub w) := by cases w <;> exact ⟨by decide, by decide, by decide⟩
theorem sbb (w : Width) : Statement (.sbb w) := by cases w <;> exact ⟨by decide, by decide, by decide⟩
theorem mul (w : Width) : Statement (.mul w) := by cases w <;> exact ⟨by decide, by decide, by decide⟩
theorem imul (w : Width) : Statement (.imul w) := by cases w <;> exact ⟨by decide, by decide, by decide⟩
theorem div (w : Width) : Statement (.div w) := by cases w <;> exact ⟨by decide, by decide, by decide⟩
theorem idiv (w : Width) : Statement (.idiv w) := by cases w <;> exact ⟨by decide, by decide, by decide⟩
theorem mod (w : Width) : Statement (.mod w) := by cases w <;> exact ⟨by decide, by decide, by decide⟩
theorem imod (w : Width) : Statement (.imod w) := by cases w <;> exact ⟨by decide, by decide, by decide⟩
theorem and (w : Width) : Statement (.and w) := by cases w <;> exact ⟨by decide, by decide, by decide⟩
theorem or (w : Width) : Statement (.or w) := by cases w <;> exact ⟨by decide, by decide, by decide⟩
theorem xor (w : Width) : Statement (.xor w) := by cases w <;> exact ⟨by decide, by decide, by decide⟩
theorem shl (w : Width) : Statement (.shl w) := by cases w <;> exact ⟨by decide, by decide, by decide⟩
theorem shr (w : Width) : Statement (.shr w) := by cases w <;> exact ⟨by decide, by decide, by decide⟩
theorem sar (w : Width) : Statement (.sar w) := by cases w <;> exact ⟨by decide, by decide, by decide⟩
theorem sal (w : Width) : Statement (.sal w) := by cases w <;> exact ⟨by decide, by decide, by decide⟩

end Sys2Proof.Laws.WrittenForms
end

