-- ==== Sys2Proof/Laws/Shift.lean ====
section
/-! SUPPORT. The bounded shift distance gives the values of the exact `2^n` of 45_shifts.md R91 to R93 and of
40_width_normalizer_flag_deriver.md R53. -/

namespace Sys2Proof.Machine

theorem distance_of_le {n : Nat} {w : Width} (h : n ≤ w.bits) : distance n w = n := Nat.min_eq_left h

theorem distance_of_ge {n : Nat} {w : Width} (h : w.bits ≤ n) : distance n w = w.bits := Nat.min_eq_right h

/-- Left shift (R91): any value, any count. -/
theorem shl_distance (d n : Nat) (w : Width) : d * 2 ^ distance n w % 2 ^ w.bits = d * 2 ^ n % 2 ^ w.bits := by
  rcases Nat.le_total n w.bits with h | h
  · rw [distance_of_le h]
  · rw [distance_of_ge h, Nat.mul_mod_left, ← Nat.add_sub_cancel' h, Nat.pow_add, ← Nat.mul_assoc, Nat.mul_right_comm,
      Nat.mul_mod_left]

/-- Logical right shift (R92): a `W`-bit value, any count. -/
theorem shr_distance {d : Nat} {w : Width} (hd : d < 2 ^ w.bits) (n : Nat) :
    d / 2 ^ distance n w = d / 2 ^ n := by
  rcases Nat.le_total n w.bits with h | h
  · rw [distance_of_le h]
  · rw [distance_of_ge h, Nat.div_eq_of_lt hd,
      Nat.div_eq_of_lt (hd.trans_le (Nat.pow_le_pow_right (by decide) h))]

/-- Flooring division by more than the magnitude leaves the sign: 0 or -1. -/
theorem ediv_eq_of_bounds {x b : Int} (h1 : -b ≤ x) (h2 : x < b) : x / b = if x < 0 then -1 else 0 := by
  have hb : 0 < b := by omega
  split
  · rename_i hx
    rw [Int.ediv_eq_neg_one_of_neg_of_le hx (by omega)]
  · exact Int.ediv_eq_zero_of_lt (by omega) h2

/-- Arithmetic right shift (R93): a signed `W`-bit value, any count. -/
theorem sar_distance {x : Int} {w : Width} (h1 : -(2 : Int) ^ (w.bits - 1) ≤ x) (h2 : x < 2 ^ (w.bits - 1)) (n : Nat) :
    x / 2 ^ distance n w = x / 2 ^ n := by
  rcases Nat.le_total n w.bits with h | h
  · rw [distance_of_le h]
  · have hle : ∀ m, w.bits ≤ m → (2 : Int) ^ (w.bits - 1) ≤ 2 ^ m := fun m hm =>
      pow_le_pow_right₀ (by norm_num) (by omega)
    have e1 := hle _ (Nat.le_refl _)
    have e2 := hle n h
    rw [distance_of_ge h, ediv_eq_of_bounds (by omega) (by omega), ediv_eq_of_bounds (by omega) (by omega)]

/-- CF of a left shift, with the exact power (R53). -/
theorem cfShl_exact (d n : Nat) (w : Width) :
    cfShl d n w = (d * 2 ^ (n - 1) % 2 ^ w.bits).testBit (w.bits - 1) := by
  rw [cfShl, shl_distance]

/-- CF of a logical right shift, with the exact power (R53). -/
theorem cfShr_exact {d : Nat} {w : Width} (hd : d < 2 ^ w.bits) (n : Nat) :
    cfShr d n w = (d / 2 ^ (n - 1)).testBit 0 := by
  rw [cfShr, shr_distance hd]

/-- CF of an arithmetic right shift, with the exact power (R53). -/
theorem cfSar_exact {x : Int} {w : Width} (h1 : -(2 : Int) ^ (w.bits - 1) ≤ x) (h2 : x < 2 ^ (w.bits - 1)) (n : Nat) :
    cfSar x n w = (x / 2 ^ (n - 1) % 2 == 1) := by
  rw [cfSar, sar_distance h1 h2]

end Sys2Proof.Machine
end

