-- ==== Sys2Proof/Laws/Step.lean ====
section
/-! SUPPORT. What an instruction, the caller's turn and a step can do, said once. -/

namespace Sys2Proof.Machine

/-- Every instruction completes, with the outputs of the block. -/
theorem exec_eq (i : Instr) (s : State) : exec i s = .next (s.endCall (instrOutputs i s.src s.dest s.flags)) := by
  cases i <;> rfl

/-- A meaning's answer, inverted. -/
theorem finish_eq_next {s t : State} {o : Outputs} : finish s o = .next t ↔ t = s.endCall o := by
  rw [finish, Host.Outcome.next.injEq, eq_comm]

/-- Every step completes: the block's outputs, then the caller's turn. -/
theorem step_eq (s : State) :
    step s = .next (s.endCall (blockOutputs s.cmd s.src s.dest s.flags)).callerTurn := by
  rw [step, blockOutputs]
  cases decode s.cmd with
  | error r => rfl
  | ok i => simp only [exec_eq]

theorem step_of_decode {s : State} {i : Instr} (h : decode s.cmd = .ok i) :
    step s = .next (s.endCall (instrOutputs i s.src s.dest s.flags)).callerTurn := by
  rw [step_eq, blockOutputs, h]

/-- The frame of every call. -/
theorem callFrame_endCall (s : State) (o : Outputs) : CallFrame s (s.endCall o) :=
  ⟨rfl, rfl, rfl, rfl, rfl, fun c hc => by rw [flagsOf_endCall, if_neg hc]⟩

/-- The caller's acts touch no output port. -/
@[simp] theorem callerActs_out (l : List CallerAct) (s : State) : (callerActs l s).out = s.out := by
  induction l generalizing s with
  | nil => rfl
  | cons a rest ih =>
    cases a with
    | call c => rfl
    | writeFlags c f => exact ih _

@[simp] theorem callerTurn_out (s : State) : s.callerTurn.out = s.out := callerActs_out _ _

/-- The caller's acts keep the canonical form. -/
theorem bankWf_callerActs (l : List CallerAct) {s : State} (h : bankWf s.bank = true) :
    bankWf (callerActs l s).bank = true := by
  induction l generalizing s with
  | nil => exact h
  | cons a rest ih =>
    cases a with
    | call c => exact h
    | writeFlags c f => exact ih (bankWf_bankWrite h c f)

@[simp] theorem isCall_call (c : Call) : (CallerAct.call c).isCall = true := rfl
@[simp] theorem isCall_writeFlags (c : Nat) (f : Flags) : (CallerAct.writeFlags c f).isCall = false := rfl
@[simp] theorem ctx_call (c : Call) : (CallerAct.call c).ctx = c.ctx := rfl
@[simp] theorem ctx_writeFlags (c : Nat) (f : Flags) : (CallerAct.writeFlags c f).ctx = c := rfl

/-- The acts read no script but the one they are given. -/
theorem callerActs_withScript (l k : List CallerAct) (s : State) :
    callerActs l { s with script := k } = callerActs l s := by
  induction l generalizing s with
  | nil => rfl
  | cons a rest ih =>
    cases a with
    | call c => rfl
    | writeFlags c f => exact ih (s.writeFlags c f)

theorem callerTurn_nil {s : State} (h : s.script = []) : s.callerTurn = s := by
  rw [State.callerTurn, h, callerActs, ← h]

theorem callerTurn_call {s : State} {c : Call} {rest : List CallerAct} (h : s.script = .call c :: rest) :
    s.callerTurn = { s.present c with script := rest } := by
  rw [State.callerTurn, h, callerActs]

theorem callerTurn_writeFlags {s : State} {c : Nat} {f : Flags} {rest : List CallerAct}
    (h : s.script = .writeFlags c f :: rest) :
    s.callerTurn = ({ s.writeFlags c f with script := rest } : State).callerTurn := by
  rw [State.callerTurn, h, callerActs]
  exact (callerActs_withScript rest rest _).symm

theorem runCalls_succ {k : Nat} {s t : State} (h : step s = .next t) : runCalls (k + 1) s = runCalls k t := by
  rw [runCalls, h]

theorem results_succ {k : Nat} {s t : State} (h : step s = .next t) : results (k + 1) s = t.out.result :: results k t := by
  rw [results, h]

/-- A run of `j + k` calls is a run of `j` and then a run of `k`. -/
theorem runCalls_add (j k : Nat) (s t : State) (h : runCalls j s = .next t) : runCalls (j + k) s = runCalls k t := by
  induction j generalizing s with
  | zero => rw [runCalls, Host.Outcome.next.injEq] at h; rw [h, Nat.zero_add]
  | succ j ih =>
    rw [runCalls_succ (step_eq s)] at h
    rw [Nat.succ_add, runCalls_succ (step_eq s)]
    exact ih _ h

/-- Of FLAGS, a defined command reads at most CF: result, written flags and `dbz` are the same for two FLAGS that agree
on a CF the operation reads. -/
theorem instrOutputs_form (i : Instr) (src dest : Port) (f g : Flags) (h : readsCF i = true → f.cf = g.cf) :
    ∃ (result : Port) (fw : FlagWrites) (dbz : Bool),
      instrOutputs i src dest f = outputsOf f result fw dbz ∧ instrOutputs i src dest g = outputsOf g result fw dbz := by
  have divide : ∀ (z : Bool) (r : Port), ∃ (result : Port) (fw : FlagWrites) (dbz : Bool),
      divideOutputs f z r = outputsOf f result fw dbz ∧ divideOutputs g z r = outputsOf g result fw dbz := by
    intro z r
    cases z <;> exact ⟨_, _, _, rfl, rfl⟩
  cases i with
  | adc w => rw [instrOutputs, instrOutputs, h rfl]; exact ⟨_, _, _, rfl, rfl⟩
  | sbb w => rw [instrOutputs, instrOutputs, h rfl]; exact ⟨_, _, _, rfl, rfl⟩
  | div w | mod w | idiv w | imod w => exact divide _ _
  | add | sub | mul | imul | and | or | xor | shl | shr | sar | sal => exact ⟨_, _, _, rfl, rfl⟩

end Sys2Proof.Machine
end

