-- ==== Sys2Proof/Tests/Slice0.lean ====
section
/-! SUPPORT. The model's own tests.

The expected values are those of spec/95_test_vectors.md and of the tables of spec/30_encoding.md, or are worked out from
the rule a test names.  The `test_witness_` theorems show states and operands that meet the hypotheses of the
obligations, one for each clause. -/

open Sys2Proof Sys2Proof.Machine

namespace Sys2Proof.Tests

/-! ### Well-formedness: each check refuses an ill-formed term -/

/-- 00_scope.md R5. -/
theorem test_width_64_not_supported :
    supportedWidth 64 = false ∧ supportedWidth 0 = false ∧ supportedWidth 9 = false := by
  decide

/-- 30_encoding.md R35: `op = 00100` is the first unassigned code and `11111` the last. -/
theorem test_unassigned_op_refused :
    ({ op := 0b00100, wsel := 0b00 } : Fields).wellFormed = false ∧
    ({ op := 0b11111, wsel := 0b00 } : Fields).wellFormed = false := by
  decide

/-- 30_encoding.md R31. -/
theorem test_reserved_wsel_refused : ({ op := 0b00000, wsel := 0b11 } : Fields).wellFormed = false := by decide

/-- 30_encoding.md R37, 45_shifts.md R97: there is no rotate. -/
theorem test_unknown_call_name_refused : ({ name := "alu_rol", width := 8 } : CallForm).wellFormed = false := by decide

theorem test_call_at_64_refused : ({ name := "alu_add", width := 64 } : CallForm).wellFormed = false := by decide

theorem test_call_well_formed :
    ({ name := "alu_sar", width := 16 } : CallForm).wellFormed = true ∧
    ofCallForm { name := "alu_sar", width := 16 } = some (.sar .w16) := by
  decide

/-! ### Decoding: the words of 30_encoding.md R32 and of the table of its section 1, written out -/

theorem test_decode_add : decode 0b0000000 = .ok (.add .w8) := rfl
theorem test_decode_adc : decode 0b0000101 = .ok (.adc .w16) := rfl
theorem test_decode_sub : decode 0b0001010 = .ok (.sub .w32) := rfl
theorem test_decode_sbb : decode 0b0001100 = .ok (.sbb .w8) := rfl
theorem test_decode_mul : decode 0b0100001 = .ok (.mul .w16) := rfl
theorem test_decode_imul : decode 0b0100110 = .ok (.imul .w32) := rfl
theorem test_decode_div : decode 0b0101000 = .ok (.div .w8) := rfl
theorem test_decode_idiv : decode 0b0101101 = .ok (.idiv .w16) := rfl
theorem test_decode_mod : decode 0b0110010 = .ok (.mod .w32) := rfl
theorem test_decode_imod : decode 0b0110100 = .ok (.imod .w8) := rfl
theorem test_decode_and : decode 0b1000001 = .ok (.and .w16) := rfl
theorem test_decode_or : decode 0b1000110 = .ok (.or .w32) := rfl
theorem test_decode_xor : decode 0b1001000 = .ok (.xor .w8) := rfl
theorem test_decode_shl : decode 0b1100001 = .ok (.shl .w16) := rfl
theorem test_decode_shr : decode 0b1100110 = .ok (.shr .w32) := rfl
theorem test_decode_sar : decode 0b1101000 = .ok (.sar .w8) := rfl
theorem test_decode_sal : decode 0b1101101 = .ok (.sal .w16) := rfl

/-- 30_encoding.md R35, the spec's examples: ADD's code with `wsel = 11`, and an unassigned code. -/
theorem test_decode_reserved :
    decode 0x03 = .error (.width 0b00000) ∧ decode 0x38 = .error (.unassigned 0b01110) := ⟨rfl, rfl⟩

theorem test_table_word : decodeTableWord 8 0x2A = some (.div .w32) ∧ decodeTableWord 8 0x80 = none := by decide

/-! ### One call -/

/-- A state in which context 0 makes one call. -/
def calling (cmd : Cmd) (src dest : Port) (flags : FlagBus) : State :=
  { State.reset with cmd := cmd, src := src, dest := dest, bank := bankWrite [] 0 (ofBus flags) }

/-- The outputs after one step. -/
def outputs (cmd : Cmd) (src dest : Port) (flags : FlagBus) : Option Outputs :=
  match step (calling cmd src dest flags) with
  | .next t => some t.out
  | .fault _ => none
  | .refused _ => none

/-- A row of the spec's vectors: `result`, `flags_out`, `flags_we`, `ill`, `dbz`. -/
def driven (result : Port) (flagsOut flagsWe : FlagBus) (ill dbz : Bool) : Option Outputs :=
  some { result := result, flagsOut := flagsOut, flagsWe := flagsWe, ill := ill, dbz := dbz }

theorem test_add_carry : outputs 0x00 0x1FF 0x201 0b00000 = driven 0x0 0b10011 0b11111 false false := by
  decide
theorem test_add_overflow : outputs 0x02 0x7FFFFFFF 0x1 0b00000 = driven 0x80000000 0b01101 0b11111 false false := by
  decide
theorem test_adc_double_carry : outputs 0x04 0xFF 0xFF 0b10000 = driven 0xFF 0b10101 0b11111 false false := by
  decide
theorem test_adc_reads_only_carry : outputs 0x04 0x12 0x34 0b01111 = driven 0x46 0b00000 0b11111 false false := by
  decide
theorem test_sub_operand_order : outputs 0x08 0x80 0x7F 0b00000 = driven 0xFF 0b11101 0b11111 false false := by
  decide
theorem test_sub_ignores_carry : outputs 0x08 0x34 0x12 0b10000 = driven 0xDE 0b10101 0b11111 false false := by
  decide
theorem test_sbb_unwrapped_borrow : outputs 0x0D 0xFFFF 0x1234 0b10000 =
    driven 0x1234 0b10000 0b11111 false false := by
  decide
theorem test_sbb_overflow_with_zero : outputs 0x0C 0x7F 0x80 0b10000 = driven 0x0 0b01011 0b11111 false false := by
  decide
theorem test_mul_masks_operands : outputs 0x20 0x1FF 0x102 0b00000 = driven 0x1FE 0b11000 0b11000 false false := by
  decide
theorem test_mul_keeps_other_flags : outputs 0x22 0x0 0xFFFFFFFF 0b11111 =
    driven 0x0 0b00111 0b11000 false false := by
  decide
theorem test_imul_negative : outputs 0x24 0x80 0x7F 0b00000 =
    driven 0xFFFFFFFFFFFFC080 0b00000 0b00000 false false := by
  decide
theorem test_imul_narrows_operands : outputs 0x26 0x1FFFFFFFF 0x2 0b00000 =
    driven 0xFFFFFFFFFFFFFFFE 0b00000 0b00000 false false := by
  decide
theorem test_div_wide_dividend : outputs 0x28 0x103 0x64 0b00000 = driven 0x21 0b00000 0b00000 false false := by
  decide
theorem test_div_by_zero : outputs 0x28 0x100 0x55 0b01010 = driven 0x0 0b01010 0b00000 false true := by
  decide
theorem test_idiv_toward_zero : outputs 0x2C 0xFFFFFFFFFFFFFFFE 0x7 0b00000 =
    driven 0xFFFFFFFFFFFFFFFD 0b00000 0b00000 false false := by
  decide
theorem test_idiv_most_negative : outputs 0x2E 0xFFFFFFFFFFFFFFFF 0x8000000000000000 0b00000 =
    driven 0x0 0b00000 0b00000 false false := by
  decide
theorem test_mod_wide_dividend : outputs 0x32 0x2 0xFFFFFFFFFFFFFFFF 0b00000 =
    driven 0x1 0b00000 0b00000 false false := by
  decide
theorem test_mod_by_zero : outputs 0x32 0x0 0x12345678 0b11111 = driven 0x0 0b11111 0b00000 false true := by
  decide
theorem test_imod_sign_of_dividend : outputs 0x34 0xFFFFFFFFFFFFFFFE 0x7 0b00000 =
    driven 0x1 0b00000 0b00000 false false := by
  decide
theorem test_imod_divisor_not_narrowed : outputs 0x34 0xFE 0x7 0b00000 = driven 0x7 0b00000 0b00000 false false := by
  decide
theorem test_and_keeps_carry : outputs 0x40 0xF0 0x3C 0b10000 = driven 0x30 0b10001 0b00111 false false := by
  decide
theorem test_and_parity_of_low_byte : outputs 0x41 0x100 0x100 0b00000 =
    driven 0x100 0b00001 0b00111 false false := by
  decide
theorem test_or_sign : outputs 0x46 0xFFFFFFFF 0x80000001 0b00000 =
    driven 0xFFFFFFFF 0b00101 0b00111 false false := by
  decide
theorem test_or_keeps_overflow : outputs 0x46 0x0 0x0 0b01000 = driven 0x0 0b01011 0b00111 false false := by
  decide
theorem test_xor_mixed : outputs 0x48 0xF0 0x3C 0b10000 = driven 0xCC 0b10101 0b00111 false false := by
  decide
theorem test_xor_self : outputs 0x4A 0x12345678 0x12345678 0b11111 = driven 0x0 0b11011 0b00111 false false := by
  decide
theorem test_shl_count_zero : outputs 0x60 0x100 0x81 0b10000 = driven 0x81 0b10101 0b00111 false false := by
  decide
theorem test_shl_count_width : outputs 0x62 0x20 0x80000001 0b00000 = driven 0x0 0b10011 0b10111 false false := by
  decide
theorem test_shr_count_width : outputs 0x64 0x8 0x81 0b00000 = driven 0x0 0b10011 0b10111 false false := by
  decide
theorem test_shr_largest_count : outputs 0x66 0xFFFFFFFF 0xFFFFFFFF 0b00000 =
    driven 0x0 0b00011 0b10111 false false := by
  decide
theorem test_sar_sign_fill : outputs 0x68 0x4 0xF0 0b00000 = driven 0xFF 0b00101 0b10111 false false := by
  decide
theorem test_sar_count_above_width : outputs 0x69 0x11 0x8001 0b10000 =
    driven 0xFFFF 0b10101 0b10111 false false := by
  decide
theorem test_sal_top_bit : outputs 0x6C 0x1 0x80 0b00000 = driven 0x0 0b10011 0b10111 false false := by
  decide
theorem test_sal_ordinary : outputs 0x6E 0x4 0x12345678 0b00000 = driven 0x23456780 0b10000 0b10111 false false := by
  decide
theorem test_reserved_width : outputs 0x03 0x1 0x2 0b10101 = driven 0x0 0b10101 0b00000 true false := by
  decide
theorem test_reserved_wins_over_zero_divisor : outputs 0x2B 0x0 0x5 0b00000 =
    driven 0x0 0b00000 0b00000 true false := by
  decide
theorem test_reserved_operation : outputs 0x4C 0x1 0x1 0b01010 = driven 0x0 0b01010 0b00000 true false := by
  decide

/-- FLAGS of the calling context after the step: program P1 of the spec's vectors, its first call. -/
theorem test_flags_stored :
    (match step (calling 0x00 0x1 0xFF 0b01110) with
    | .next t => some (t.flagsOf 0, t.flagsOf 1)
    | .fault _ => none
    | .refused _ => none) = some (ofBus 0b10011, Config.flagsStart) := by
  decide

/-- Driving a word makes the first step after reset run it. -/
theorem test_first_step_after_reset :
    step (State.reset.withFetchWord 8 0x04) = exec (.adc .w8) (State.reset.withFetchWord 8 0x04) := rfl

/-- The invariant tells states apart: a list out of order, a listed start value, and a reserved command's nonzero result
do not meet it. -/
theorem test_invariant_can_fail :
    bankWf [(2, ofBus 1), (1, ofBus 1)] = false ∧ bankWf [(1, Config.flagsStart)] = false ∧
    ¬({ result := 1, flagsOut := 0, flagsWe := 0, ill := true, dbz := false } : Outputs).legal := by
  refine ⟨by decide, by decide, fun h => ?_⟩
  exact absurd (h.2.1 (.inl rfl)).1 (by decide)

/-! ### Witnesses of the obligations' hypotheses -/

/-- ZeroSignParityOfResult, at both ends of the range. -/
theorem test_witness_normalised_results : 0 < 2 ^ Width.w8.bits ∧ 2 ^ Width.w32.bits - 1 < 2 ^ Width.w32.bits := by decide

/-- AdditionCarryInBothForms: the largest operands with and without a carry-in. -/
theorem test_witness_addition_operands :
    (255 < 2 ^ Width.w8.bits ∧ 255 < 2 ^ Width.w8.bits ∧ 1 ≤ 1 ∧ cfAdd 255 255 1 .w8 = true) ∧
    (255 < 2 ^ Width.w8.bits ∧ 0 < 2 ^ Width.w8.bits ∧ 0 ≤ 1 ∧ cfAdd 255 0 0 .w8 = false) := by
  decide

/-- SubtractionBorrowInBothForms: the unwrapped `s + b = 2^W`, and the least operands. -/
theorem test_witness_subtraction_operands :
    (0 < 2 ^ Width.w8.bits ∧ 255 < 2 ^ Width.w8.bits ∧ 1 ≤ 1 ∧ 255 = 2 ^ Width.w8.bits - 1 ∧
      cfSub 255 255 1 .w8 = true) ∧
    (0 < 2 ^ Width.w8.bits ∧ 0 < 2 ^ Width.w8.bits ∧ 0 ≤ 1 ∧ cfSub 0 0 0 .w8 = false) := by
  decide

/-- ShiftCarryFromOneShiftLess: counts 0, 1 and 2 fall under its clauses. -/
theorem test_witness_shift_counts :
    cfShl 0x81 1 .w8 = true ∧ cfShl 0x81 2 .w8 = false ∧ cfShr 0x81 1 .w8 = true ∧ cfSar (-127) 1 .w8 = true ∧
    (writesShift 0 true 0x81 .w8).cf = none := by
  decide

/-- ShiftCarryClosedForms: count 1, count `W` and count `W + 1`. -/
theorem test_witness_shift_closed_forms :
    (1 ≤ 1 ∧ 1 ≤ Width.w8.bits) ∧ (1 ≤ 8 ∧ 8 ≤ Width.w8.bits ∧ cfShl 0x81 8 .w8 = true ∧ cfShr 0x81 8 .w8 = true) ∧
    (1 ≤ 9 ∧ Width.w8.bits < 9 ∧ cfShl 0x81 9 .w8 = false ∧ cfSar (-127) 9 .w8 = true) := by
  decide

/-- DivResultFlagsAndFrame, ModResultFlagsAndFrame, DivisionIdentities and DivideUndoesMultiply: the least and the
largest effective divisor, and a `src` that is not zero whose effective divisor is. -/
theorem test_witness_unsigned_divisors :
    (calling 0x28 0x01 0x55 0).src.toNat % 2 ^ Width.w8.bits ≠ 0 ∧
    (calling 0x28 0xFF 0x55 0).src.toNat % 2 ^ Width.w8.bits ≠ 0 ∧
    (calling 0x28 0x100 0x55 0).src.toNat % 2 ^ Width.w8.bits = 0 := by
  decide

/-- IdivResultFlagsAndFrame, ImodResultFlagsAndFrame and DivisionIdentities: -1, -2^63, 2^32 at width 32, and zero. -/
theorem test_witness_signed_divisors :
    (calling 0x2E 0xFFFFFFFFFFFFFFFF 5 0).src.toInt ≠ 0 ∧ (calling 0x2E 0x8000000000000000 5 0).src.toInt ≠ 0 ∧
    (calling 0x2E 0x100000000 5 0).src ≠ 0 ∧ (calling 0x2E 0 5 0).src.toInt = 0 := by
  decide

/-- ShiftByZeroKeepsCarry, and CarryChainIsUndisturbed's shifts: counts that mask to 0. -/
theorem test_witness_count_zero :
    (calling 0x60 0 0x81 0b10000).src.toNat % 2 ^ Width.w8.bits = 0 ∧
    (calling 0x60 0x100 0x81 0b10000).src.toNat % 2 ^ Width.w8.bits = 0 := by
  decide

/-- ShiftByWidthOrMore: count `W`, the largest count, and both signs. -/
theorem test_witness_counts_of_width_or_more :
    Width.w8.bits ≤ (calling 0x68 8 0x81 0).src.toNat % 2 ^ Width.w8.bits ∧
    Width.w8.bits ≤ (calling 0x68 0xFF 0x7F 0).src.toNat % 2 ^ Width.w8.bits ∧
    ((calling 0x68 8 0x81 0).dest.toNat % 2 ^ Width.w8.bits).testBit (Width.w8.bits - 1) = true ∧
    ((calling 0x68 0xFF 0x7F 0).dest.toNat % 2 ^ Width.w8.bits).testBit (Width.w8.bits - 1) = false := by
  decide

/-- InverseAndCarryPropagation: a carry-in, and the double-carry operands. -/
theorem test_witness_double_carry :
    (calling 0x04 0xFF 0xFF 0b10000).flags.cf = true ∧ (calling 0x04 0xFF 0xFF 0b10000).src = 0xFF ∧
    (calling 0x04 0xFF 0xFF 0b10000).dest = 0xFF := by
  decide

/-- OwnedFlagsOverwrittenOthersKept: ADC with the same carry-in, ADD with different ones. -/
theorem test_witness_owned_flags :
    (readsCF (.adc .w8) = true ∧ (calling 0x04 1 2 0b10000).flags.cf = (calling 0x04 1 2 0b11111).flags.cf ∧
      ∃ t u, exec (.adc .w8) (calling 0x04 1 2 0b10000) = .next t ∧
        exec (.adc .w8) (calling 0x04 1 2 0b11111) = .next u) ∧
    (readsCF (.add .w8) = false ∧ ∃ t u, exec (.add .w8) (calling 0x00 1 2 0b00000) = .next t ∧
        exec (.add .w8) (calling 0x00 1 2 0b10000) = .next u) :=
  ⟨⟨rfl, by decide, _, _, rfl, rfl⟩, rfl, _, _, rfl, rfl⟩

/-- UpperOperandBitsAreIgnored: operands that differ above bit 7 only. -/
theorem test_witness_upper_operand_bits :
    isDivide (.add .w8) = false ∧ (calling 0x00 0x1FF 1 0).flags = (calling 0x00 0xFF 1 0).flags ∧
    (calling 0x00 0x1FF 1 0).src.setWidth (Instr.add .w8).width.bits =
      (calling 0x00 0xFF 1 0).src.setWidth (Instr.add .w8).width.bits ∧
    (calling 0x00 0x1FF 1 0).src ≠ (calling 0x00 0xFF 1 0).src := by
  decide

/-- AddAndSubDefineAllFlags and ShiftByZeroKeepsCarry: every instruction of their lists. -/
theorem test_witness_listed_instructions :
    Instr.add .w8 ∈ [Instr.add .w8, Instr.sub .w8] ∧ Instr.sub .w8 ∈ [Instr.add .w8, Instr.sub .w8] ∧
    Instr.sal .w8 ∈ [Instr.shl .w8, Instr.shr .w8, Instr.sar .w8, Instr.sal .w8] := by
  decide

/-- DecodeAndEncodeAgree: a word and its instruction, and a word that is no instruction's. -/
theorem test_witness_decode_encode :
    decode 0b0101110 = .ok (.idiv .w32) ∧ encode (.idiv .w32) = 0b0101110 ∧ encode (.sal .w32) = 0x6E ∧
    (decode 0b0101111).toOption = none := by
  decide

/-- ReservedCommandsAreRejected and ReservedCommandWritesNothing: both reasons. -/
theorem test_witness_reserved_commands :
    decode (calling 0x2B 0 5 0).cmd = .error (.width 0b01010) ∧
    decode (calling 0x10 0xFF 0xFF 0b11111).cmd = .error (.unassigned 0b00100) := ⟨rfl, rfl⟩

/-- StepRunsDecodedInstruction: a command that decodes, no act left, a call, a write of FLAGS. -/
theorem test_witness_step_clauses :
    decode (calling 0x04 1 2 0).cmd = .ok (.adc .w8) ∧ State.reset.script = [] ∧
    ({ State.reset with script := [.call { ctx := 1, cmd := 0x08, src := 1, dest := 2 }] } : State).callerTurn =
      { State.reset with ctx := 1, cmd := 0x08, src := 1, dest := 2 } ∧
    ({ State.reset with script := [.writeFlags 1 (ofBus 0b10000)] } : State).callerTurn.flagsOf 1 = ofBus 0b10000 :=
  ⟨rfl, rfl, rfl, rfl⟩

/-- StepKeepsInvariant: a state with a flag set that meets the invariant and makes a step. -/
theorem test_witness_invariant :
    (calling 0x04 0xFF 0xFF 0b10000).Inv ∧ ∃ t, step (calling 0x04 0xFF 0xFF 0b10000) = .next t :=
  ⟨⟨by decide, by simp [calling, State.reset, Outputs.legal, flagMasks]⟩, _, rfl⟩

/-- CanonicalFlagsAreUnique: a list of two contexts. -/
theorem test_witness_canonical_flags :
    bankWf [(1, ofBus 0b10000), (4, ofBus 0b00001)] = true ∧
    bankWf (bankWrite (bankWrite [] 4 (ofBus 0b00001)) 1 (ofBus 0b10000)) = true ∧
    ∀ c, bankRead [(1, ofBus 0b10000), (4, ofBus 0b00001)] c =
      bankRead (bankWrite (bankWrite [] 4 (ofBus 0b00001)) 1 (ofBus 0b10000)) c :=
  ⟨by decide, by decide, fun c => by
    rw [show bankWrite (bankWrite [] 4 (ofBus 0b00001)) 1 (ofBus 0b10000) =
      [(1, ofBus 0b10000), (4, ofBus 0b00001)] by decide]⟩

/-- Context 0's call on the ports, and the given acts after it. -/
def callingThen (script : List CallerAct) : State :=
  { calling 0x00 1 0xFF 0 with script := script }

/-- ContextsCannotInterfere: two callers that agree on context 0 and differ in what context 1 does. -/
theorem test_witness_contexts :
    (callingThen []).flagsOf 0 = (callingThen [.call { ctx := 1, cmd := 0x08, src := 1, dest := 0 }]).flagsOf 0 ∧
    (callingThen []).acts.filter (fun a => a.ctx == 0) =
      (callingThen [.call { ctx := 1, cmd := 0x08, src := 1, dest := 0 }]).acts.filter (fun a => a.ctx == 0) ∧
    (∃ t, runCalls (1 + (callingThen []).script.countP CallerAct.isCall) (callingThen []) = .next t) ∧
    ∃ t, runCalls 2 (callingThen [.call { ctx := 1, cmd := 0x08, src := 1, dest := 0 }]) = .next t ∧
      1 + (callingThen [.call { ctx := 1, cmd := 0x08, src := 1, dest := 0 }]).script.countP CallerAct.isCall = 2 :=
  ⟨rfl, rfl, ⟨_, rfl⟩, _, rfl, rfl⟩

/-- CarryChainAddsMultiwordNumbers: program P1 of the spec's vectors. -/
theorem test_witness_carry_chain :
    (callingThen [.call { ctx := 0, cmd := 0x04, src := 1, dest := 0x12 }]).cmd = encode (.add .w8) ∧
    (callingThen [.call { ctx := 0, cmd := 0x04, src := 1, dest := 0x12 }]).script =
      [((1 : Port), (0x12 : Port))].map (fun p => .call { ctx := 0, cmd := encode (.adc .w8), src := p.1, dest := p.2 }) ∧
    results 2 (callingThen [.call { ctx := 0, cmd := 0x04, src := 1, dest := 0x12 }]) = [0x00, 0x14] := by
  decide

/-- BorrowChainSubtractsMultiwordNumbers: program P2 of the spec's vectors. -/
theorem test_witness_borrow_chain :
    (calling 0x09 1 0 0).cmd = encode (.sub .w16) ∧
    [CallerAct.call { ctx := 0, cmd := 0x0D, src := 0, dest := 1 }] =
      [((0 : Port), (1 : Port))].map (fun p => .call { ctx := 0, cmd := encode (.sbb .w16), src := p.1, dest := p.2 }) ∧
    results 2 { calling 0x09 1 0 0 with script := [.call { ctx := 0, cmd := 0x0D, src := 0, dest := 1 }] } =
      [0xFFFF, 0x0] := by
  decide

end Sys2Proof.Tests
end

/-! SUPPORT. Proofs of the family 10_state.md: the outputs of a call as a function of the four input ports (R16). -/

namespace Sys2Proof.Machine

/-- `flags_in` carries the calling context's FLAGS without loss (10_state.md R11, R15). -/
@[simp] theorem ofBus_flagsIn (s : State) : ofBus s.flagsIn = s.flags :=
  ofBus_toBus s.flags

/-- A step leaves on the output ports what the block drives from the four input ports: the caller's turn after the call
touches no output (10_state.md R16; 70_reset_and_hazards.md R132). -/
theorem step_out_eq_blockOutputs (s : State) :
    ∃ t, step s = .next t ∧ t.out = blockOutputs s.cmd s.src s.dest (ofBus s.flagsIn) := by
  refine ⟨_, step_eq s, ?_⟩
  rw [callerTurn_out, endCall_out, ofBus_flagsIn]

/-- Settles O44: the function is the block itself, reading FLAGS off the `flags_in` bus. -/
theorem outputsAreFunctionOfInputs : Obligations.OutputsAreFunctionOfInputs :=
  ⟨fun cmd src dest flagsIn => blockOutputs cmd src dest (ofBus flagsIn), step_out_eq_blockOutputs⟩

end Sys2Proof.Machine

section
/-! SUPPORT. Proofs of the family 40_width_normalizer_flag_deriver.md: the width normalizer (R40, R41), the flag deriver
(R45 to R55), and the operations that see only the low `W` bits of their operands (R43). -/

namespace Sys2Proof.Machine

/-! ### The width normalizer -/

theorem extractLsb'_zero_eq_setWidth (v : Port) (w : Width) : v.extractLsb' 0 w.bits = v.setWidth w.bits := by
  rw [BitVec.setWidth_eq_extractLsb' (w.bits_le.trans (by decide))]

/-- Masking and reduction modulo `2^W` are one operation (R40). -/
theorem ofNat_normU_eq_and_mask (v : Port) (w : Width) :
    BitVec.ofNat 64 (normU v w) = v &&& BitVec.ofNat 64 (2 ^ w.bits - 1) := by
  have hpow : 2 ^ w.bits ≤ 2 ^ 64 := Nat.pow_le_pow_right (by decide) (w.bits_le.trans (by decide))
  have hpos := Nat.two_pow_pos w.bits
  apply BitVec.eq_of_toNat_eq
  rw [BitVec.toNat_and, BitVec.toNat_ofNat, BitVec.toNat_ofNat, Nat.mod_eq_of_lt ((normU_lt v w).trans_le hpow),
    Nat.mod_eq_of_lt (by omega), Nat.and_two_pow_sub_one_eq_mod, normU]

/-- Settles O1: the remainder, the low-bit field, the range and the mask, each by its own lemma. -/
theorem unsignedNormalisationIsMasking : Obligations.UnsignedNormalisationIsMasking :=
  ⟨by decide, fun v w => ⟨rfl, by rw [extractLsb'_zero_eq_setWidth, normU_eq_toNat_setWidth], normU_lt v w,
    ofNat_normU_eq_and_mask v w⟩⟩

/-- Settles O2: the signed reading of the low-bit field; the case form is the definition of `signedW`. -/
theorem signedNormalisationIsSignExtension : Obligations.SignedNormalisationIsSignExtension := by
  intro v w
  have hread : normS v w = (v.extractLsb' 0 w.bits).toInt := by
    rw [extractLsb'_zero_eq_setWidth, normS_eq_toInt_setWidth]
  obtain ⟨hlow, hhigh⟩ := normS_bounds v w
  exact ⟨hread, rfl, hlow, hhigh, by rw [hread]; rfl⟩

/-! ### Zero, sign and parity -/

/-- Bit `W-1` of a `W`-bit number is the sign bit of the `W`-bit vector. -/
theorem sfOf_eq_msb (r : Nat) (w : Width) : sfOf r w = (BitVec.ofNat w.bits r).msb := by
  have hpos := w.bits_pos
  rw [sfOf, BitVec.msb_eq_getLsbD_last, BitVec.getLsbD_ofNat, decide_eq_true (by omega), Bool.true_and]

/-- Flipping a bit once for every element that meets `p` flips it by the parity of their number. -/
theorem foldl_xor_eq_xor_parity {α : Type} (p : α → Bool) (l : List α) (b : Bool) :
    l.foldl (fun acc a => acc ^^ p a) b = (b ^^ l.countP p % 2 == 1) := by
  induction l generalizing b with
  | nil => simp
  | cons a rest ih =>
    rw [List.foldl_cons, ih, List.countP_cons]
    cases p a with
    | false => simp
    | true => rcases Nat.mod_two_eq_zero_or_one (rest.countP p) with h | h <;> simp [h, Nat.add_mod]

/-- PF as the source's chain of exclusive-ors (R47). -/
theorem pfOf_eq_xor_chain (r : Nat) :
    pfOf r = (true ^^ r.testBit 0 ^^ r.testBit 1 ^^ r.testBit 2 ^^ r.testBit 3 ^^ r.testBit 4 ^^ r.testBit 5
      ^^ r.testBit 6 ^^ r.testBit 7) := by
  have hchain := foldl_xor_eq_xor_parity (fun i => r.testBit i) (List.range 8) true
  refine Eq.trans ?_ hchain.symm
  rw [pfOf]
  rcases Nat.mod_two_eq_zero_or_one ((List.range 8).countP fun i => r.testBit i) with h | h <;> simp [h]

/-- PF by the number of ones in the low byte (R47). -/
theorem pfOf_iff_count_mem (r : Nat) :
    pfOf r = true ↔ ((List.range 8).filter (fun i => r.testBit i)).length ∈ [0, 2, 4, 6, 8] := by
  have hle : (List.range 8).countP (fun i => r.testBit i) ≤ 8 := List.countP_le_length
  rw [pfOf, ← List.countP_eq_length_filter, beq_iff_eq]
  simp only [List.mem_cons, List.not_mem_nil, or_false]
  omega

/-- Settles O3: ZF and SF from their definitions, PF by counting the ones of the low byte and by their exclusive-or. -/
theorem zeroSignParityOfResult : Obligations.ZeroSignParityOfResult := by
  intro w r hr
  exact ⟨by rw [zfOf, beq_iff_eq], by rw [sfOf, testBit_sign hr, decide_eq_true_iff], sfOf_eq_msb r w,
    pfOf_iff_count_mem r, pfOf_eq_xor_chain r⟩

/-! ### Carry and borrow -/

/-- The integer power of two, as `omega` reads it together with the natural one. -/
theorem int_two_pow_eq_cast (k : Nat) : (2 : Int) ^ k = ((2 ^ k : Nat) : Int) := by push_cast; rfl

/-- A remainder one modulus either side of zero: a negative value wraps once. -/
theorem emod_eq_of_ge_neg_of_lt {i m : Int} (hlow : -m ≤ i) (hhigh : i < m) :
    i % m = if i < 0 then i + m else i := by
  split
  · rw [← Int.add_emod_right, Int.emod_eq_of_lt (by omega) (by omega)]
  · exact Int.emod_eq_of_lt (by omega) hhigh

theorem two_le_two_pow_bits (w : Width) : 2 ≤ 2 ^ w.bits := by cases w <;> decide

/-- Taking a borrow from a normalised value wraps upward exactly when the value is 0 (R49). -/
theorem lt_sub_borrow_emod_iff {pre m : Int} {b : Nat} (hm : 2 ≤ m) (h0 : 0 ≤ pre) (hlt : pre < m) (hb : b ≤ 1) :
    pre < (pre - b) % m ↔ pre = 0 ∧ b = 1 := by
  rw [emod_eq_of_ge_neg_of_lt (by omega) (by omega)]
  split <;> omega

/-- Settles O5: the difference without the borrow is 0 exactly at equal operands, where alone the borrow wraps it. -/
theorem subtractionBorrowInBothForms : Obligations.SubtractionBorrowInBothForms := by
  intro w d v b hd hv hb pre r
  have htwo := two_le_two_pow_bits w
  have hcast := int_two_pow_eq_cast w.bits
  have hcf : cfSub d v b w = true ↔ d < v + b := decide_eq_true_iff
  have hpre : pre = if (d : Int) - v < 0 then (d : Int) - v + 2 ^ w.bits else (d : Int) - v :=
    emod_eq_of_ge_neg_of_lt (by omega) (by omega)
  obtain ⟨hpre_nonneg, hpre_lt⟩ : 0 ≤ pre ∧ pre < 2 ^ w.bits := by split at hpre <;> omega
  have hpre_zero : pre = 0 ↔ d = v := by split at hpre <;> omega
  have hwrap : pre < r ↔ pre = 0 ∧ b = 1 :=
    lt_sub_borrow_emod_iff (by omega) hpre_nonneg hpre_lt hb
  refine ⟨?_, hcf, ?_, hwrap, ?_⟩
  · rw [hcf]; omega
  · rw [hcf, hwrap, hpre_zero]; omega
  · rw [hcf]; omega

/-! ### CF and OF of the exact result -/

/-- A sum below two moduli wraps at most once. -/
theorem mod_eq_of_lt_two_mul {n m : Nat} (h : n < 2 * m) : n % m = if m ≤ n then n - m else n := by
  split
  · rw [Nat.mod_eq_sub_mod ‹_›, Nat.mod_eq_of_lt (by omega)]
  · exact Nat.mod_eq_of_lt (by omega)

/-- The exact signed value leaves the `W`-bit signed range (R55). -/
def OutsideSigned (w : Width) (z : Int) : Prop :=
  z < -2 ^ (w.bits - 1) ∨ 2 ^ (w.bits - 1) ≤ z

/-- R50's sign rule and the exact signed sum agree.  The cases are the operands' signs and whether the sum wraps. -/
theorem ofAdd_iff_outsideSigned {d v c : Nat} {w : Width} (hd : d < 2 ^ w.bits) (hv : v < 2 ^ w.bits) (hc : c ≤ 1) :
    ofAdd d v ((d + v + c) % 2 ^ w.bits) w = true ↔ OutsideSigned w (signedW d w + signedW v w + c) := by
  have hhalf := w.two_pow_bits
  have hr : (d + v + c) % 2 ^ w.bits < 2 ^ w.bits := Nat.mod_lt _ (Nat.two_pow_pos _)
  have hwrap := mod_eq_of_lt_two_mul (n := d + v + c) (m := 2 ^ w.bits) (by omega)
  rw [ofAdd, testBit_sign hd, testBit_sign hv, testBit_sign hr, OutsideSigned, signedW, signedW]
  simp only [Bool.and_eq_true, beq_iff_eq, decide_eq_decide, bne_iff_ne, ne_eq, int_two_pow_eq_cast]
  split at hwrap <;> split <;> split <;> omega

/-- R51's sign rule and the exact signed difference agree.  The cases are the operands' signs and whether the difference
wraps. -/
theorem ofSub_iff_outsideSigned {d v b : Nat} {w : Width} (hd : d < 2 ^ w.bits) (hv : v < 2 ^ w.bits) (hb : b ≤ 1) :
    ofSub d v (twosW ((d : Int) - v - b) w) w = true ↔ OutsideSigned w (signedW d w - signedW v w - b) := by
  have hhalf := w.two_pow_bits
  have hr := twosW_lt ((d : Int) - v - b) w
  have hwrap := twosW_cast ((d : Int) - v - b) w
  rw [int_two_pow_eq_cast, emod_eq_of_ge_neg_of_lt (by omega) (by omega)] at hwrap
  rw [ofSub, testBit_sign hd, testBit_sign hv, testBit_sign hr, OutsideSigned, signedW, signedW]
  simp only [Bool.and_eq_true, decide_eq_decide, bne_iff_ne, ne_eq, int_two_pow_eq_cast]
  split at hwrap <;> split <;> split <;> omega

theorem addOutputs_cf_of_iff (w : Width) (src dest : Port) {c : Nat} (hc : c ≤ 1) (old : Flags) :
    ((ofBus (addOutputs w src dest c old).flagsOut).cf = true ↔
      (2 : Int) ^ w.bits ≤ (dest.setWidth w.bits).toNat + (src.setWidth w.bits).toNat + c) ∧
    ((ofBus (addOutputs w src dest c old).flagsOut).of = true ↔
      OutsideSigned w ((dest.setWidth w.bits).toInt + (src.setWidth w.bits).toInt + c)) := by
  rw [addOutputs, outputsOf, ofBus_toBus, passThrough_writesAll, ← normU_eq_toNat_setWidth, ← normU_eq_toNat_setWidth,
    ← normS_eq_toInt_setWidth, ← normS_eq_toInt_setWidth]
  refine ⟨?_, ofAdd_iff_outsideSigned (normU_lt dest w) (normU_lt src w) hc⟩
  rw [cfAdd, decide_eq_true_iff]
  exact_mod_cast Iff.rfl

theorem subOutputs_cf_of_iff (w : Width) (src dest : Port) {b : Nat} (hb : b ≤ 1) (old : Flags) :
    ((ofBus (subOutputs w src dest b old).flagsOut).cf = true ↔
      ((dest.setWidth w.bits).toNat : Int) - (src.setWidth w.bits).toNat - b < 0) ∧
    ((ofBus (subOutputs w src dest b old).flagsOut).of = true ↔
      OutsideSigned w ((dest.setWidth w.bits).toInt - (src.setWidth w.bits).toInt - b)) := by
  rw [subOutputs, outputsOf, ofBus_toBus, passThrough_writesAll, ← normU_eq_toNat_setWidth, ← normU_eq_toNat_setWidth,
    ← normS_eq_toInt_setWidth, ← normS_eq_toInt_setWidth]
  refine ⟨?_, ofSub_iff_outsideSigned (normU_lt dest w) (normU_lt src w) hb⟩
  rw [cfSub, decide_eq_true_iff]
  omega

/-- MUL drives one value on CF and OF (R52). -/
theorem mulOutputs_cf_of_iff (w : Width) (src dest : Port) (old : Flags) :
    ((ofBus (mulOutputs w src dest old).flagsOut).cf = true ↔
      (2 : Int) ^ w.bits ≤ (dest.setWidth w.bits).toNat * (src.setWidth w.bits).toNat) ∧
    ((ofBus (mulOutputs w src dest old).flagsOut).of = true ↔
      (2 : Int) ^ w.bits ≤ (dest.setWidth w.bits).toNat * (src.setWidth w.bits).toNat) := by
  rw [mulOutputs, outputsOf, ofBus_toBus, passThrough_writesCFOF, ← normU_eq_toNat_setWidth, ← normU_eq_toNat_setWidth,
    and_self, cfofMul, decide_eq_true_iff]
  exact_mod_cast Iff.rfl

/-- Settles O6: ADC and SBB carry the CF before the call, ADD and SUB carry 0. -/
theorem flagsAgreeWithUntruncatedArithmetic : Obligations.FlagsAgreeWithUntruncatedArithmetic := by
  intro w s d v x y c outside
  have hc : s.flags.cf.toNat ≤ 1 := Bool.toNat_le _
  have hadd := addOutputs_cf_of_iff w s.src s.dest (Nat.zero_le 1) s.flags
  have hsub := subOutputs_cf_of_iff w s.src s.dest (Nat.zero_le 1) s.flags
  rw [Nat.cast_zero, add_zero, add_zero] at hadd
  rw [Nat.cast_zero, sub_zero, sub_zero] at hsub
  refine ⟨⟨_, exec_eq (.add w) s, ?_⟩, ⟨_, exec_eq (.adc w) s, ?_⟩, ⟨_, exec_eq (.sub w) s, ?_⟩,
    ⟨_, exec_eq (.sbb w) s, ?_⟩, ⟨_, exec_eq (.mul w) s, ?_⟩⟩ <;> rw [flags_endCall]
  · exact hadd
  · exact addOutputs_cf_of_iff w s.src s.dest hc s.flags
  · exact hsub
  · exact subOutputs_cf_of_iff w s.src s.dest hc s.flags
  · exact mulOutputs_cf_of_iff w s.src s.dest s.flags

/-! ### Shift carry -/

/-- Settles O7: the bounded distance of the model gives the exact power of two. -/
theorem shiftCarryFromOneShiftLess : Obligations.ShiftCarryFromOneShiftLess := by
  intro w dest n d x
  obtain ⟨hlow, hhigh⟩ := normS_bounds dest w
  have hd : d < 2 ^ w.bits := normU_lt dest w
  refine ⟨fun _ => ⟨cfShl_exact d n w, cfShr_exact hd n, ?_⟩, ?_, ?_⟩
  · rw [cfSar_exact hlow hhigh, beq_iff_eq]
  · rintro rfl
    rw [cfShl_exact, Nat.sub_self, Nat.pow_zero, Nat.mul_one, Nat.mod_eq_of_lt hd]
  · rintro rfl b r
    rfl

/-! ### Operations that see the low `W` bits only -/

theorem normU_eq_of_setWidth_eq {a b : Port} {w : Width} (h : a.setWidth w.bits = b.setWidth w.bits) :
    normU a w = normU b w := by
  rw [normU_eq_toNat_setWidth, normU_eq_toNat_setWidth, h]

/-- Outside the divide family an operation reads its operands through `normU` alone; the signed view `normS` is a
function of it (R42, R43). -/
theorem instrOutputs_congr_normU {i : Instr} (hi : isDivide i = false) {src src' dest dest' : Port}
    (hsrc : normU src i.width = normU src' i.width) (hdest : normU dest i.width = normU dest' i.width) (old : Flags) :
    instrOutputs i src dest old = instrOutputs i src' dest' old := by
  cases i <;> simp only [Instr.width] at hsrc hdest
  case add | adc => simp only [instrOutputs, addOutputs, hsrc, hdest]
  case sub | sbb => simp only [instrOutputs, subOutputs, hsrc, hdest]
  case mul => simp only [instrOutputs, mulOutputs, hsrc, hdest]
  case imul => simp only [instrOutputs, imulOutputs, normS, hsrc, hdest]
  case and | or | xor => simp only [instrOutputs, hsrc, hdest]
  case shl | sal => simp only [instrOutputs, shlOutputs, hsrc, hdest]
  case shr => simp only [instrOutputs, shrOutputs, hsrc, hdest]
  case sar => simp only [instrOutputs, sarOutputs, normS, hsrc, hdest]
  case div | idiv | mod | imod => cases hi

/-- Settles O33: equal low bits normalise alike, and the block reads no more of the operands than that. -/
theorem upperOperandBitsAreIgnored : Obligations.UpperOperandBitsAreIgnored := by
  intro i s₁ s₂ hi hflags hsrc hdest
  refine ⟨_, _, exec_eq i s₁, exec_eq i s₂, ?_⟩
  rw [endCall_out, endCall_out, hflags]
  exact instrOutputs_congr_normU hi (normU_eq_of_setWidth_eq hsrc) (normU_eq_of_setWidth_eq hdest) s₂.flags

end Sys2Proof.Machine
end

section
/-! SUPPORT. Proofs of the family 41_add_sub_family.md: ADD, ADC, SUB, SBB (R61 to R64) and their laws (R65). -/

namespace Sys2Proof.Machine

/-! ### Effects of the family's calls -/

/-- The command word is four times the operation code plus the width select (30_encoding.md R30). -/
theorem encode_eq_four_mul_opCode_add (i : Instr) :
    encode i = (opCode i).setWidth 7 * 4 + (wselCode i.width).setWidth 7 := by
  rw [encode]
  generalize opCode i = op, wselCode i.width = wsel
  revert op wsel
  decide

/-- The effect of the end of a call whose outputs are those of a defined command (10_state.md R12, R15). -/
theorem callEffect_endCall_outputsOf (s : State) (result : Port) (fw : FlagWrites) (dbz : Bool) :
    CallEffect s (s.endCall (outputsOf s.flags result fw dbz)) result (passThrough fw s.flags) (writeMask fw) dbz :=
  ⟨rfl, by rw [flags_endCall, outputsOf, ofBus_toBus], callFrame_endCall s _⟩

/-- The effect of ADD and ADC, which differ in the carry-in `c` alone (R61, R62). -/
theorem callEffect_endCall_addOutputs (w : Width) (s : State) (c : Nat) :
    let d := normU s.dest w
    let v := normU s.src w
    let r := (d + v + c) % 2 ^ w.bits
    CallEffect s (s.endCall (addOutputs w s.src s.dest c s.flags)) (zext r)
      { cf := cfAdd d v c w, of := ofAdd d v r w, sf := sfOf r w, zf := zfOf r, pf := pfOf r } 0b11111 false := by
  intro d v r
  rw [← passThrough_writesAll _ _ _ _ s.flags, ← writeMask_writesAll (cfAdd d v c w) (ofAdd d v r w) r w]
  exact callEffect_endCall_outputsOf s _ _ _

/-- R49 by the sign of the exact difference. -/
theorem cfSub_eq_decide_neg (d v b : Nat) (w : Width) : cfSub d v b w = decide ((d : Int) - v - b < 0) := by
  rw [cfSub, decide_eq_decide]
  omega

/-- The effect of SUB and SBB, which differ in the borrow-in `b` alone; `z` is the exact difference (R63, R64). -/
theorem callEffect_endCall_subOutputs (w : Width) (s : State) (b : Nat) {z : Int}
    (hz : (normU s.dest w : Int) - normU s.src w - b = z) :
    let d := normU s.dest w
    let v := normU s.src w
    let r := twosW z w
    CallEffect s (s.endCall (subOutputs w s.src s.dest b s.flags)) (zext r)
      { cf := decide (z < 0), of := ofSub d v r w, sf := sfOf r w, zf := zfOf r, pf := pfOf r } 0b11111 false := by
  subst hz
  intro d v r
  rw [← cfSub_eq_decide_neg d v b w, ← passThrough_writesAll _ _ _ _ s.flags,
    ← writeMask_writesAll (cfSub d v b w) (ofSub d v r w) r w]
  exact callEffect_endCall_outputsOf s _ _ _

/-- Settles O9: the carry-in is 0. -/
theorem addResultFlagsAndFrame : Obligations.AddResultFlagsAndFrame := by
  intro w s d v r
  exact ⟨encode_eq_four_mul_opCode_add (.add w), _, exec_eq (.add w) s, callEffect_endCall_addOutputs w s 0⟩

/-- Settles O10: the carry-in is CF before the call. -/
theorem adcResultFlagsAndFrame : Obligations.AdcResultFlagsAndFrame := by
  intro w s d v c r
  exact ⟨encode_eq_four_mul_opCode_add (.adc w), _, exec_eq (.adc w) s, callEffect_endCall_addOutputs w s c⟩

/-- Settles O11: the borrow-in is 0. -/
theorem subResultFlagsAndFrame : Obligations.SubResultFlagsAndFrame := by
  intro w s d v r
  exact ⟨encode_eq_four_mul_opCode_add (.sub w), _, exec_eq (.sub w) s,
    callEffect_endCall_subOutputs w s 0 (sub_zero _)⟩

/-- Settles O12: the borrow-in is CF before the call. -/
theorem sbbResultFlagsAndFrame : Obligations.SbbResultFlagsAndFrame := by
  intro w s d v b r
  exact ⟨encode_eq_four_mul_opCode_add (.sbb w), _, exec_eq (.sbb w) s, callEffect_endCall_subOutputs w s b rfl⟩

/-! ### Inverse and carry propagation -/

/-- Zero extension and normalisation cancel on `W` bits. -/
theorem normU_zext {r : Nat} {w : Width} (hr : r < 2 ^ w.bits) : normU (zext r) w = r := by
  rw [normU, toNat_zext hr, Nat.mod_eq_of_lt hr]

/-- Reduction after the sum and reduction after the difference leave `d` (R65). -/
theorem twosW_add_mod_sub {d : Nat} {w : Width} (hd : d < 2 ^ w.bits) (v : Nat) :
    twosW (((d + v) % 2 ^ w.bits : Nat) - v) w = d := by
  zify
  rw [twosW_cast, Int.emod_sub_emod, add_sub_cancel_right]
  exact Int.emod_eq_of_lt (Int.natCast_nonneg d) (by exact_mod_cast hd)

/-- SUB of `src` from ADD's result gives the normalised `dest` (R65). -/
theorem subOutputs_addOutputs_result (w : Width) (src dest : Port) (f g : Flags) :
    (subOutputs w src (addOutputs w src dest 0 f).result 0 g).result = zext (normU dest w) := by
  have hmod : (normU dest w + normU src w) % 2 ^ w.bits < 2 ^ w.bits := Nat.mod_lt _ (Nat.two_pow_pos _)
  simp only [subOutputs, addOutputs, outputsOf, add_zero, normU_zext hmod, Nat.cast_zero, sub_zero,
    twosW_add_mod_sub (normU_lt dest w)]

theorem normU_one (w : Width) : normU 1 w = 1 := by cases w <;> rfl

/-- A carry-in of 1 gives the result of adding 1 to `src` first (R65). -/
theorem addOutputs_carry_result (w : Width) (src dest : Port) (f g h : Flags) :
    (addOutputs w src dest 1 f).result = (addOutputs w (addOutputs w src 1 0 g).result dest 0 h).result := by
  have hmod : (1 + normU src w) % 2 ^ w.bits < 2 ^ w.bits := Nat.mod_lt _ (Nat.two_pow_pos _)
  simp only [addOutputs, outputsOf, add_zero, normU_one, normU_zext hmod, Nat.add_mod_mod]
  rw [← Nat.add_assoc, Nat.add_right_comm]

theorem addOutputs_flagsOut_cf (w : Width) (src dest : Port) (c : Nat) (old : Flags) :
    (ofBus (addOutputs w src dest c old).flagsOut).cf = cfAdd (normU dest w) (normU src w) c w := by
  rw [addOutputs, outputsOf, ofBus_toBus, passThrough_writesAll]

/-- The double carry at width 8: ADC carries out, while in two ADDs the first wraps to 0 and the second carries nothing
(R65). -/
theorem addOutputs_double_carry_w8 (f g h : Flags) :
    let adc := addOutputs .w8 0xFF 0xFF 1 f
    let twoAdds := addOutputs .w8 (addOutputs .w8 0xFF 1 0 g).result 0xFF 0 h
    adc.result = 0xFF ∧ (ofBus adc.flagsOut).cf = true ∧
      twoAdds.result = 0xFF ∧ (ofBus twoAdds.flagsOut).cf = false := by
  intro adc twoAdds
  have hfirst : (addOutputs .w8 0xFF 1 0 g).result = 0 := rfl
  refine ⟨rfl, ?_, rfl, ?_⟩
  · rw [addOutputs_flagsOut_cf]
    decide
  · rw [addOutputs_flagsOut_cf, hfirst]
    decide

/-- Settles O30: both laws are about the outputs alone, since every call completes with the block's outputs. -/
theorem inverseAndCarryPropagation : Obligations.InverseAndCarryPropagation := by
  refine ⟨fun w s => ⟨_, _, exec_eq (.add w) s, exec_eq (.sub w) _, ?_⟩,
    fun w s hcf => ⟨_, _, _, exec_eq (.adc w) s, exec_eq (.add w) _, exec_eq (.add w) _, ?_, ?_⟩⟩
  · exact subOutputs_addOutputs_result w s.src s.dest s.flags _
  · simp only [endCall_out, instrOutputs, hcf, Bool.toNat_true]
    exact addOutputs_carry_result w s.src s.dest s.flags _ _
  · rintro rfl hsrc hdest
    simp only [endCall_out, flags_endCall, instrOutputs, hcf, hsrc, hdest, Bool.toNat_true]
    exact addOutputs_double_carry_w8 s.flags _ _

end Sys2Proof.Machine
end

section
/-! SUPPORT. Proofs of the family 42_mul_family.md: MUL (R70) and the division that undoes it (R72). -/

namespace Sys2Proof.Machine

/-- The product of two normalised operands fits in 64 bits: `W` is at most 32 (R70). -/
theorem normU_mul_normU_lt (a b : Port) (w : Width) : normU a w * normU b w < 2 ^ 64 := by
  have hexp : w.bits + w.bits ≤ 64 := Nat.add_le_add w.bits_le w.bits_le
  calc normU a w * normU b w
      < 2 ^ w.bits * 2 ^ w.bits := Nat.mul_lt_mul'' (normU_lt a w) (normU_lt b w)
    _ = 2 ^ (w.bits + w.bits) := (Nat.pow_add 2 _ _).symm
    _ ≤ 2 ^ 64 := Nat.pow_le_pow_right (by decide) hexp

/-- MUL's `result` port loses nothing of the product (R70). -/
theorem mulOutputs_result_toNat (w : Width) (src dest : Port) (old : Flags) :
    (mulOutputs w src dest old).result.toNat = normU dest w * normU src w :=
  (BitVec.toNat_ofNat _ 64).trans (Nat.mod_eq_of_lt (normU_mul_normU_lt dest src w))

/-- DIV of MUL's result: the dividend is the whole product, so the quotient by the common factor is exact (R72). -/
theorem divOutputs_mulOutputs_result {w : Width} {src : Port} (hsrc : normU src w ≠ 0) (dest : Port) (f g : Flags) :
    divOutputs w src (mulOutputs w src dest f).result g = outputsOf g (zext (normU dest w)) writesNone false := by
  have hquot : normU dest w * normU src w / normU src w = normU dest w :=
    Nat.mul_div_cancel _ (Nat.pos_of_ne_zero hsrc)
  rw [divOutputs, divisorU, divideOutputs, if_neg (by rwa [beq_iff_eq]), mulOutputs_result_toNat, hquot,
    Nat.mod_eq_of_lt (normU_lt dest w)]

/-- The effect of MUL: one value on CF and OF, the other flags as before (R70). -/
theorem callEffect_endCall_mulOutputs (w : Width) (s : State) :
    let p := normU s.dest w * normU s.src w
    CallEffect s (s.endCall (mulOutputs w s.src s.dest s.flags)) (zext p)
      { s.flags with cf := cfofMul p w, of := cfofMul p w } 0b11000 false := by
  intro p
  rw [← passThrough_writesCFOF, ← writeMask_writesCFOF (cfofMul p w)]
  exact callEffect_endCall_outputsOf s _ _ _

/-- Settles O20: MUL's result reaches the dividend port whole, and the nonzero factor cancels. -/
theorem divideUndoesMultiply : Obligations.DivideUndoesMultiply := by
  intro w s hsrc
  have hdiv := divOutputs_mulOutputs_result (w := w) hsrc s.dest s.flags
  refine ⟨_, _, exec_eq (.mul w) s, exec_eq (.div w) _, ?_, ?_⟩
  · exact congrArg Outputs.result (hdiv _)
  · exact congrArg Outputs.dbz (hdiv _)

/-- Settles O13: the command word, the bound of the product and the effect, each by its own lemma. -/
theorem mulResultFlagsAndFrame : Obligations.MulResultFlagsAndFrame := by
  intro w s d v
  exact ⟨encode_eq_four_mul_opCode_add (.mul w), normU_mul_normU_lt s.dest s.src w, _, exec_eq (.mul w) s,
    callEffect_endCall_mulOutputs w s⟩

end Sys2Proof.Machine
end

section
/-! SUPPORT. Proofs of the family 44_and_or_xor.md: AND, OR and XOR (R85 to R88). -/

namespace Sys2Proof.Machine

/-! ### The result's ports and flags, for a `W`-bit vector -/

/-- The model's zero extension is the library's. -/
theorem zext_toNat {n : Nat} (r : BitVec n) : zext r.toNat = r.setWidth 64 :=
  BitVec.ofNat_toNat 64 r

theorem sfOf_toNat {w : Width} (r : BitVec w.bits) : sfOf r.toNat w = r.msb := by
  rw [sfOf_eq_msb, BitVec.ofNat_toNat, BitVec.setWidth_eq]

theorem zfOf_toNat {n : Nat} (r : BitVec n) : zfOf r.toNat = decide (r = 0#n) := by
  rw [zfOf, beq_eq_decide, decide_eq_decide, ← BitVec.toNat_inj, BitVec.toNat_zero]

/-! ### The effect of the family's calls -/

/-- The effect of AND, OR and XOR, which differ in the result `r` alone: CF and OF are as before (R85). -/
theorem callEffect_endCall_logicOutputs {w : Width} (s : State) {n : Nat} {r : BitVec w.bits} (hr : n = r.toNat) :
    CallEffect s (s.endCall (logicOutputs w n s.flags)) (r.setWidth 64)
      { s.flags with sf := r.msb, zf := decide (r = 0#w.bits), pf := pfOf r.toNat } 0b00111 false := by
  subst hr
  rw [← zext_toNat, ← sfOf_toNat, ← zfOf_toNat, ← passThrough_writesSZP, ← writeMask_writesSZP r.toNat w]
  exact callEffect_endCall_outputsOf s _ _ _

/-- Settles O22: on normalised operands the Boolean functions of numbers and of `W`-bit vectors agree. -/
theorem logicResultFlagsAndFrame : Obligations.LogicResultFlagsAndFrame := by
  intro w s d v effect
  have hd : normU s.dest w = d.toNat := normU_eq_toNat_setWidth s.dest w
  have hv : normU s.src w = v.toNat := normU_eq_toNat_setWidth s.src w
  have hand : normU s.dest w &&& normU s.src w = (d &&& v).toNat := by rw [hd, hv, BitVec.toNat_and]
  have hor : normU s.dest w ||| normU s.src w = (d ||| v).toNat := by rw [hd, hv, BitVec.toNat_or]
  have hxor : normU s.dest w ^^^ normU s.src w = (d ^^^ v).toNat := by rw [hd, hv, BitVec.toNat_xor]
  exact ⟨⟨encode_eq_four_mul_opCode_add (.and w), encode_eq_four_mul_opCode_add (.or w),
      encode_eq_four_mul_opCode_add (.xor w)⟩,
    ⟨_, exec_eq (.and w) s, callEffect_endCall_logicOutputs s hand⟩,
    ⟨_, exec_eq (.or w) s, callEffect_endCall_logicOutputs s hor⟩,
    ⟨_, exec_eq (.xor w) s, callEffect_endCall_logicOutputs s hxor⟩⟩

end Sys2Proof.Machine
end

section
/-! SUPPORT. Proofs of the family 45_shifts.md: SAL is SHL (R94). -/

namespace Sys2Proof.Machine

/-- The block drives the same outputs for SAL as for SHL, from every operand and every FLAGS (R94). -/
theorem instrOutputs_sal_eq_shl (w : Width) (src dest : Port) (old : Flags) :
    instrOutputs (.sal w) src dest old = instrOutputs (.shl w) src dest old :=
  rfl

/-- A call of SAL answers as the call of SHL on the same state does (R94). -/
theorem exec_sal_eq_shl (w : Width) (s : State) : exec (.sal w) s = exec (.shl w) s := by
  rw [exec_eq, exec_eq, instrOutputs_sal_eq_shl]

/-- Settles O26: SHL completes, and SAL answers as SHL does. -/
theorem salIsIdenticalToShl : Obligations.SalIsIdenticalToShl := by
  intro w s
  have hshl := exec_eq (.shl w) s
  exact ⟨encode_eq_four_mul_opCode_add (.sal w), _, (exec_sal_eq_shl w s).trans hshl, hshl⟩

end Sys2Proof.Machine
end

section
/-! SUPPORT. Proofs of the family 30_encoding.md: the command word and its two fields (R30 to R32, R35). -/

namespace Sys2Proof

/-- A command word is the sum of its two fields at their places (30_encoding.md R30). -/
theorem cmd_eq_opBits_add_wselBits (c : Cmd) : c = (c &&& 0x7C) + (c &&& 0x03) := by
  revert c
  decide

theorem append_and_opMask (op : BitVec 5) (wsel : BitVec 2) : (op ++ wsel : Cmd) &&& 0x7C = op.setWidth 7 * 4 := by
  revert op wsel
  decide

theorem append_and_wselMask (op : BitVec 5) (wsel : BitVec 2) : (op ++ wsel : Cmd) &&& 0x03 = wsel.setWidth 7 := by
  revert op wsel
  decide

/-- The two masked fields determine the instruction's word and no other (R30 to R32). -/
theorem eq_encode_iff_fields (c : Cmd) (i : Instr) :
    c = encode i ↔ c &&& 0x7C = (opCode i).setWidth 7 * 4 ∧ c &&& 0x03 = (wselCode i.width).setWidth 7 := by
  constructor
  · rintro rfl
    exact ⟨append_and_opMask _ _, append_and_wselMask _ _⟩
  · rintro ⟨hop, hwsel⟩
    rw [cmd_eq_opBits_add_wselBits c, hop, hwsel, Machine.encode_eq_four_mul_opCode_add]

theorem decode_eq_ok_iff {c : Cmd} {i : Instr} : decode c = .ok i ↔ c = encode i :=
  ⟨fun h => (encode_of_decode h).symm, fun h => h ▸ decode_encode i⟩

/-- Settles O37: the decoder is inverse to the encoder, and the encoder puts the two codes at their places. -/
theorem decodeAndEncodeAgree : Obligations.DecodeAndEncodeAgree :=
  fun i c => ⟨wellFormed_all i, decode_eq_ok_iff, eq_encode_iff_fields c i⟩

/-- The decoder finds no instruction exactly when a field is reserved (R35). -/
theorem decode_isNone_eq_not_wellFormed (c : Cmd) :
    (decode c).toOption.isNone = !(fieldsOf c).wellFormed := by
  revert c
  decide

theorem exists_decode_error_iff (c : Cmd) : (∃ r, decode c = .error r) ↔ (decode c).toOption.isNone = true := by
  cases decode c <;> simp [Except.toOption]

/-- Settles O38: both parts are read off the 128 command words. -/
theorem reservedCommandsAreRejected : Obligations.ReservedCommandsAreRejected := by
  refine ⟨fun c => ?_, by decide⟩
  rw [exists_decode_error_iff, decode_isNone_eq_not_wellFormed, Bool.not_eq_true']

/-- Settles O39: the decoder run on each word. -/
theorem tableWordsDecode : Obligations.TableWordsDecode :=
  ⟨rfl, rfl, rfl, rfl, rfl, rfl, rfl, rfl, rfl, rfl⟩

end Sys2Proof
end

section
/-! SUPPORT. What the block drives on `flags_we`, `ill` and `dbz` for each instruction (10_state.md R12, R13;
60_exceptions.md R101 to R104), and the invariant that follows. -/

namespace Sys2Proof.Machine

/-! ### The flags a call writes -/

/-- The flags an instruction writes: the table of 10_state.md R13. -/
def writtenFlags (src : Port) : Instr → FlagBus
  | .add _ | .adc _ | .sub _ | .sbb _ => 0b11111
  | .mul _ => 0b11000
  | .imul _ | .div _ | .idiv _ | .mod _ | .imod _ => 0b00000
  | .and _ | .or _ | .xor _ => 0b00111
  | .shl w | .shr w | .sar w | .sal w => if src.toNat % 2 ^ w.bits = 0 then 0b00111 else 0b10111

theorem divideOutputs_flagsWe (old : Flags) (z : Bool) (r : Port) : (divideOutputs old z r).flagsWe = 0b00000 := by
  cases z <;> exact writeMask_writesNone

/-- The block drives the table's mask on `flags_we` (R13). -/
theorem instrOutputs_flagsWe (i : Instr) (src dest : Port) (old : Flags) :
    (instrOutputs i src dest old).flagsWe = writtenFlags src i := by
  cases i with
  | add | adc | sub | sbb => exact writeMask_writesAll _ _ _ _
  | mul => exact writeMask_writesCFOF _
  | imul => exact writeMask_writesNone
  | div | idiv | mod | imod => exact divideOutputs_flagsWe _ _ _
  | and | or | xor => exact writeMask_writesSZP _ _
  | shl | shr | sar | sal => exact writeMask_writesShift _ _ _ _

theorem writtenFlags_mem_flagMasks (src : Port) (i : Instr) : writtenFlags src i ∈ flagMasks := by
  cases i with
  | shl | shr | sar | sal => rw [writtenFlags]; split <;> decide
  | add | adc | sub | sbb | mul | imul | div | idiv | mod | imod | and | or | xor => simp [writtenFlags, flagMasks]

/-- A defined command never drives `ill` (60_exceptions.md R101). -/
theorem instrOutputs_ill (i : Instr) (src dest : Port) (old : Flags) : (instrOutputs i src dest old).ill = false := by
  obtain ⟨_, _, _, h, -⟩ := instrOutputs_form i src dest old old fun _ => rfl
  rw [h]
  rfl

/-- Settles O31: the mask of R13's table, which the statement writes out. -/
theorem flagWriteMaskOfEachOperation : Obligations.FlagWriteMaskOfEachOperation := by
  intro i s
  refine ⟨_, exec_eq i s, instrOutputs_ill i _ _ _, (instrOutputs_flagsWe i _ _ _).trans ?_⟩
  cases i <;> rfl

/-! ### The zero divisor -/

theorem divideOutputs_dbz (old : Flags) (z : Bool) (r : Port) : (divideOutputs old z r).dbz = z := by
  cases z <;> rfl

theorem divisorS_beq_zero (src : Port) : (divisorS src == 0) = (src == 0) := by
  rw [divisorS, beq_eq_decide, beq_eq_decide, decide_eq_decide]
  exact BitVec.toInt_inj (y := 0)

/-- `dbz` says that the effective divisor is zero, and is 0 outside the divide family (43_div_family.md R75, R80). -/
theorem instrOutputs_dbz (i : Instr) (src dest : Port) (old : Flags) :
    (instrOutputs i src dest old).dbz = zeroDivisor src i := by
  cases i with
  | div | mod => exact divideOutputs_dbz _ _ _
  | idiv | imod => exact (divideOutputs_dbz _ _ _).trans (divisorS_beq_zero src)
  | add | adc | sub | sbb | mul | imul | and | or | xor | shl | shr | sar | sal => rfl

/-- Only the divide family has a divisor. -/
theorem isDivide_of_zeroDivisor {src : Port} {i : Instr} (h : zeroDivisor src i = true) : isDivide i = true := by
  cases i with
  | div | idiv | mod | imod => rfl
  | add | adc | sub | sbb | mul | imul | and | or | xor | shl | shr | sar | sal => cases h

theorem divideOutputs_result_of_dbz {old : Flags} {z : Bool} {r : Port} (h : (divideOutputs old z r).dbz = true) :
    (divideOutputs old z r).result = 0 := by
  rw [divideOutputs_dbz] at h
  rw [h]
  rfl

/-- With `dbz` at 1 the result is 0 and no flag is written (60_exceptions.md R102). -/
theorem instrOutputs_of_dbz {i : Instr} {src dest : Port} {old : Flags} (h : (instrOutputs i src dest old).dbz = true) :
    (instrOutputs i src dest old).result = 0 ∧ (instrOutputs i src dest old).flagsWe = 0 := by
  cases i with
  | div | idiv | mod | imod => exact ⟨divideOutputs_result_of_dbz h, divideOutputs_flagsWe _ _ _⟩
  | add | adc | sub | sbb | mul | imul | and | or | xor | shl | shr | sar | sal => cases h

/-! ### The invariant -/

theorem legal_instrOutputs (i : Instr) (src dest : Port) (old : Flags) : (instrOutputs i src dest old).legal := by
  have hill := instrOutputs_ill i src dest old
  refine ⟨fun ⟨h, _⟩ => absurd h (by simp [hill]), fun h => instrOutputs_of_dbz (h.resolve_left (by simp [hill])), ?_⟩
  rw [instrOutputs_flagsWe]
  exact writtenFlags_mem_flagMasks src i

theorem legal_reservedOutputs (old : Flags) : (reservedOutputs old).legal :=
  ⟨fun ⟨_, h⟩ => Bool.false_ne_true h, fun _ => ⟨rfl, rfl⟩, (by decide : (0 : FlagBus) ∈ flagMasks)⟩

/-- The block drives legal outputs for every command (60_exceptions.md R101, R102, R104). -/
theorem legal_blockOutputs (cmd : Cmd) (src dest : Port) (old : Flags) : (blockOutputs cmd src dest old).legal := by
  rw [blockOutputs]
  split
  · exact legal_reservedOutputs old
  · exact legal_instrOutputs _ src dest old

/-- The end of a call and the caller's turn keep the invariant when the call's outputs are legal. -/
theorem inv_callerTurn_endCall {s : State} (h : s.Inv) {o : Outputs} (ho : o.legal) : (s.endCall o).callerTurn.Inv := by
  obtain ⟨hbank, -⟩ := h
  refine ⟨bankWf_callerActs _ (bankWf_bankWrite hbank s.ctx _), ?_⟩
  rwa [callerTurn_out, endCall_out]

/-- Settles O46: a step is the end of a call with the block's outputs, then the caller's turn. -/
theorem stepKeepsInvariant : Obligations.StepKeepsInvariant := by
  intro s t hs hstep
  rw [step_eq, Host.Outcome.next.injEq] at hstep
  rw [← hstep]
  exact inv_callerTurn_endCall hs (legal_blockOutputs _ _ _ _)

/-- Settles O47: no context is listed, and the outputs are 0. -/
theorem invariantHoldsAtReset : Obligations.InvariantHoldsAtReset :=
  ⟨rfl, by simp [State.reset, Outputs.legal, flagMasks]⟩

/-! ### Commands and steps -/

/-- The outputs of a command that decodes. -/
theorem blockOutputs_of_ok {cmd : Cmd} {i : Instr} (h : decode cmd = .ok i) (src dest : Port) (old : Flags) :
    blockOutputs cmd src dest old = instrOutputs i src dest old := by
  rw [blockOutputs, h]

/-- The outputs of a reserved command. -/
theorem blockOutputs_of_error {cmd : Cmd} {r : Reserved} (h : decode cmd = .error r) (src dest : Port) (old : Flags) :
    blockOutputs cmd src dest old = reservedOutputs old := by
  rw [blockOutputs, h]

/-- `ill` and `dbz` of the block, by what the command decodes to (60_exceptions.md R101, R102). -/
theorem blockOutputs_status (cmd : Cmd) (src dest : Port) (old : Flags) :
    ((blockOutputs cmd src dest old).ill = true ↔ ∃ r, decode cmd = .error r) ∧
    ((blockOutputs cmd src dest old).dbz = true ↔
      ∃ i, decode cmd = .ok i ∧ isDivide i = true ∧ zeroDivisor src i = true) := by
  cases hdec : decode cmd with
  | error r => simp [blockOutputs_of_error hdec, reservedOutputs]
  | ok i =>
    rw [blockOutputs_of_ok hdec, instrOutputs_ill, instrOutputs_dbz]
    simpa using isDivide_of_zeroDivisor

/-- Settles O43: the outputs after a step are the block's, and they are legal. -/
theorem statusOutputsExactly : Obligations.StatusOutputsExactly := by
  intro s
  obtain ⟨hill, hdbz⟩ := blockOutputs_status s.cmd s.src s.dest s.flags
  obtain ⟨hnotBoth, -, -⟩ := legal_blockOutputs s.cmd s.src s.dest s.flags
  refine ⟨_, step_eq s, ?_⟩
  rw [callerTurn_out, endCall_out]
  exact ⟨hill, hdbz, hnotBoth⟩

/-- Settles O40: the turn's three cases are the three shapes of the script. -/
theorem stepRunsDecodedInstruction : Obligations.StepRunsDecodedInstruction :=
  ⟨fun s i h => ⟨_, exec_eq i s, step_of_decode h⟩, fun _ => callerTurn_nil, fun _ _ _ => callerTurn_call,
    fun _ _ _ _ => callerTurn_writeFlags⟩

theorem ofNat_toNat_encode (i : Instr) : BitVec.ofNat 7 (encode i).toNat = encode i := by
  rw [BitVec.ofNat_toNat, BitVec.setWidth_eq]

theorem decodeTableWord_encode (n : Nat) (i : Instr) : decodeTableWord n (encode i).toNat = some i := by
  rw [decodeTableWord, if_pos (encode i).isLt, ofNat_toNat_encode, decode_encode]
  rfl

theorem withFetchWord_encode (s : State) (n : Nat) (i : Instr) :
    s.withFetchWord n (encode i).toNat = { s with cmd := encode i } := by
  rw [State.withFetchWord, ofNat_toNat_encode]

/-- Settles O41: the word is a 7-bit one, and what is driven decodes to the instruction. -/
theorem fetchedWordIsRunNext : Obligations.FetchedWordIsRunNext := by
  intro s i n
  rw [withFetchWord_encode]
  exact ⟨decodeTableWord_encode n i, rfl, _, exec_eq i _, step_of_decode (decode_encode i)⟩

/-- Settles O42: `flags_out` is `flags_in`, so the calling context stores the FLAGS it has. -/
theorem reservedCommandWritesNothing : Obligations.ReservedCommandWritesNothing := by
  intro s r hdec
  have hout := blockOutputs_of_error hdec s.src s.dest s.flags
  refine ⟨_, step_eq s, ?_, callFrame_endCall s _, ?_⟩
  · rw [flags_endCall, hout, reservedOutputs, ofBus_toBus]
  · rw [endCall_out, hout]
    rfl

/-- Settles O45: induction on the number of calls, since every step answers a next state. -/
theorem noCallEverStops : Obligations.NoCallEverStops := by
  intro k
  induction k with
  | zero => exact fun s => ⟨s, rfl⟩
  | succ k ih =>
    intro s
    rw [runCalls_succ (step_eq s)]
    exact ih _

end Sys2Proof.Machine
end

section
/-! SUPPORT. Which flags a call leaves, bit by bit of the flag bus (10_state.md R11, R12; 70_reset_and_hazards.md
sections 2 and 3). -/

namespace Sys2Proof.Machine

/-! ### The flag bus -/

@[simp] theorem getLsbD_toBus_four (f : Flags) : (toBus f).getLsbD 4 = f.cf := congrArg Flags.cf (ofBus_toBus f)
@[simp] theorem getLsbD_toBus_three (f : Flags) : (toBus f).getLsbD 3 = f.of := congrArg Flags.of (ofBus_toBus f)
@[simp] theorem getLsbD_toBus_two (f : Flags) : (toBus f).getLsbD 2 = f.sf := congrArg Flags.sf (ofBus_toBus f)
@[simp] theorem getLsbD_toBus_one (f : Flags) : (toBus f).getLsbD 1 = f.zf := congrArg Flags.zf (ofBus_toBus f)
@[simp] theorem getLsbD_toBus_zero (f : Flags) : (toBus f).getLsbD 0 = f.pf := congrArg Flags.pf (ofBus_toBus f)

/-- Settles O48: each bit of the bus, and the two round trips. -/
theorem flagBusCarriesFlags : Obligations.FlagBusCarriesFlags :=
  ⟨fun f => ⟨getLsbD_toBus_four f, getLsbD_toBus_three f, getLsbD_toBus_two f, getLsbD_toBus_one f,
    getLsbD_toBus_zero f, ofBus_toBus f⟩, toBus_ofBus⟩

/-! ### Owned and unowned flags -/

theorem getD_eq_getD_of_isSome {α : Type} {o : Option α} (h : o.isSome = true) (a b : α) : o.getD a = o.getD b := by
  obtain ⟨x, rfl⟩ := Option.isSome_iff_exists.mp h
  rfl

theorem getD_eq_of_isSome_eq_false {α : Type} {o : Option α} (h : o.isSome = false) (a : α) : o.getD a = a := by
  rw [Option.isSome_eq_false_iff, Option.isNone_iff_eq_none] at h
  rw [h, Option.getD_none]

/-- A written flag does not depend on the old FLAGS (R12). -/
theorem passThrough_bit_of_written {fw : FlagWrites} {j : Nat} (hj : j < 5) (h : (writeMask fw).getLsbD j = true)
    (f g : Flags) : (toBus (passThrough fw f)).getLsbD j = (toBus (passThrough fw g)).getLsbD j := by
  interval_cases j <;> simp only [writeMask, passThrough, getLsbD_toBus_zero, getLsbD_toBus_one, getLsbD_toBus_two,
    getLsbD_toBus_three, getLsbD_toBus_four] at h ⊢ <;> exact getD_eq_getD_of_isSome h _ _

/-- A flag that is not written passes through (R12). -/
theorem passThrough_bit_of_unwritten {fw : FlagWrites} {j : Nat} (hj : j < 5) (h : (writeMask fw).getLsbD j = false)
    (f : Flags) : (toBus (passThrough fw f)).getLsbD j = (toBus f).getLsbD j := by
  interval_cases j <;> simp only [writeMask, passThrough, getLsbD_toBus_zero, getLsbD_toBus_one, getLsbD_toBus_two,
    getLsbD_toBus_three, getLsbD_toBus_four] at h ⊢ <;> exact getD_eq_of_isSome_eq_false h _

/-- Settles O32: both calls drive one result and one set of flag writes, put over two old FLAGS. -/
theorem ownedFlagsOverwrittenOthersKept : Obligations.OwnedFlagsOverwrittenOthersKept := by
  intro i s₁ s₂ t₁ t₂ hsrc hdest hcf h₁ h₂
  rw [exec_eq, Host.Outcome.next.injEq] at h₁ h₂
  obtain ⟨result, fw, dbz, hout₁, hout₂⟩ := instrOutputs_form i s₂.src s₂.dest s₁.flags s₂.flags hcf
  rw [← h₁, ← h₂, endCall_out, endCall_out, hsrc, hdest, hout₁, hout₂]
  exact ⟨rfl, rfl, rfl, fun j hj => ⟨fun h => passThrough_bit_of_written hj h _ _,
    fun h => passThrough_bit_of_unwritten hj h _⟩⟩

/-- A flag outside the instruction's row of R13 passes through the call. -/
theorem instrOutputs_flagsOut_of_unwritten {i : Instr} {src : Port} {j : Nat} (hj : j < 5)
    (h : (writtenFlags src i).getLsbD j = false) (dest : Port) (old : Flags) :
    (instrOutputs i src dest old).flagsOut.getLsbD j = (toBus old).getLsbD j := by
  obtain ⟨result, fw, dbz, hout, -⟩ := instrOutputs_form i src dest old old fun _ => rfl
  rw [← instrOutputs_flagsWe i src dest old] at h
  rw [hout] at h ⊢
  exact passThrough_bit_of_unwritten hj h old

/-- Settles O35: CF and OF are bits 4 and 3 of the bus, which the masks of these calls leave at 0. -/
theorem carryChainIsUndisturbed : Obligations.CarryChainIsUndisturbed := by
  intro i s hi
  have hmask : (writtenFlags s.src i).getLsbD 4 = false ∧ (writtenFlags s.src i).getLsbD 3 = false := by
    cases i with
    | imul | div | idiv | mod | imod | and | or | xor => simp [writtenFlags]
    | shl | shr | sar | sal => simp [writtenFlags, show _ = 0 from hi]
    | add | adc | sub | sbb | mul => exact hi.elim
  obtain ⟨hcf, hof⟩ := hmask
  refine ⟨_, exec_eq i s, ?_, ?_⟩ <;> rw [flags_endCall]
  · exact (instrOutputs_flagsOut_of_unwritten (by decide) hcf _ _).trans (getLsbD_toBus_four _)
  · exact (instrOutputs_flagsOut_of_unwritten (by decide) hof _ _).trans (getLsbD_toBus_three _)

/-- ADD and SUB read no old flag and write all five (70_reset_and_hazards.md section 2). -/
theorem instrOutputs_add_sub_congr {i : Instr} {w : Width} (hi : i ∈ [Instr.add w, Instr.sub w]) (src dest : Port)
    (f g : Flags) : instrOutputs i src dest f = instrOutputs i src dest g := by
  simp only [List.mem_cons, List.not_mem_nil, or_false] at hi
  rcases hi with rfl | rfl
  · simp only [instrOutputs, addOutputs, outputsOf, passThrough_writesAll]
  · simp only [instrOutputs, subOutputs, outputsOf, passThrough_writesAll]

/-- Settles O36: the outputs are the same from both FLAGS, and the stored FLAGS are `flags_out`. -/
theorem addAndSubDefineAllFlags : Obligations.AddAndSubDefineAllFlags := by
  intro w s f g i hi
  have hout := instrOutputs_add_sub_congr hi s.src s.dest
    (s.writeFlags s.ctx f).flags (s.writeFlags s.ctx g).flags
  refine ⟨_, _, exec_eq i _, exec_eq i _, ?_, hout, ?_⟩
  · simp only [flags_endCall, writeFlags_src, writeFlags_dest, hout]
  · rw [endCall_out, instrOutputs_flagsWe]
    simp only [List.mem_cons, List.not_mem_nil, or_false] at hi
    rcases hi with rfl | rfl <;> rfl

end Sys2Proof.Machine
end

section
/-! SUPPORT. FLAGS of the contexts over many calls (10_state.md R19; 20_memory.md R25; 60_exceptions.md R110). -/

namespace Sys2Proof.Machine

/-! ### The canonical form -/

/-- Below all listed contexts the start value is read. -/
theorem bankRead_eq_start_of_forall_lt {l : List (Nat × Flags)} {c : Nat} (h : ∀ e ∈ l, c < e.1) :
    bankRead l c = Config.flagsStart :=
  bankRead_eq_start_of_forall_ne fun e he => (h e he).ne'

theorem bankRead_cons_self (k : Nat) (f : Flags) (rest : List (Nat × Flags)) : bankRead ((k, f) :: rest) k = f :=
  if_pos rfl

theorem bankRead_cons_other {k c : Nat} (h : k ≠ c) (f : Flags) (rest : List (Nat × Flags)) :
    bankRead ((k, f) :: rest) c = bankRead rest c :=
  if_neg h

/-- The least listed context of a canonical list is not below that of another list that reads alike. -/
theorem le_head_of_reads_alike {k k' : Nat} {f f' : Flags} {a b : List (Nat × Flags)}
    (ha : bankWf ((k, f) :: a) = true) (hb : bankWf ((k', f') :: b) = true)
    (h : bankRead ((k, f) :: a) k = bankRead ((k', f') :: b) k) : k' ≤ k := by
  obtain ⟨hf, -, -⟩ := bankWf_cons.mp ha
  obtain ⟨-, habove, -⟩ := bankWf_cons.mp hb
  by_contra hlt
  rw [not_le] at hlt
  rw [bankRead_cons_self, bankRead_cons_other hlt.ne',
    bankRead_eq_start_of_forall_lt fun e he => hlt.trans (habove e he)] at h
  exact hf h

/-- A canonical list that is not empty does not read as the empty one. -/
theorem not_reads_as_nil {k : Nat} {f : Flags} {a : List (Nat × Flags)} (ha : bankWf ((k, f) :: a) = true) :
    bankRead ((k, f) :: a) k ≠ bankRead [] k := by
  rw [bankRead_cons_self]
  exact (bankWf_cons.mp ha).1

/-- Two canonical lists with one least context that read alike have tails that read alike. -/
theorem tails_read_alike {k : Nat} {f f' : Flags} {a b : List (Nat × Flags)}
    (ha : bankWf ((k, f) :: a) = true) (hb : bankWf ((k, f') :: b) = true)
    (h : ∀ c, bankRead ((k, f) :: a) c = bankRead ((k, f') :: b) c) (c : Nat) : bankRead a c = bankRead b c := by
  obtain ⟨-, haboveA, -⟩ := bankWf_cons.mp ha
  obtain ⟨-, haboveB, -⟩ := bankWf_cons.mp hb
  by_cases hk : k = c
  · subst hk
    rw [bankRead_eq_start_of_forall_lt haboveA, bankRead_eq_start_of_forall_lt haboveB]
  · rw [← bankRead_cons_other hk f, h c, bankRead_cons_other hk]

/-- Settles O49: the heads agree on their context, so on its FLAGS, and the tails read alike. -/
theorem canonicalFlagsAreUnique : Obligations.CanonicalFlagsAreUnique := by
  intro a
  induction a with
  | nil =>
    rintro (_ | ⟨⟨k', f'⟩, b⟩) - hb h
    · rfl
    · exact absurd (h k').symm (not_reads_as_nil hb)
  | cons e a ih =>
    obtain ⟨k, f⟩ := e
    rintro (_ | ⟨⟨k', f'⟩, b⟩) ha hb h
    · exact absurd (h k) (not_reads_as_nil ha)
    · have hle := le_head_of_reads_alike hb ha (h k').symm
      have hge := le_head_of_reads_alike ha hb (h k)
      obtain rfl : k = k' := le_antisymm hle hge
      obtain ⟨-, -, hrestA⟩ := bankWf_cons.mp ha
      obtain ⟨-, -, hrestB⟩ := bankWf_cons.mp hb
      have hf : f = f' := by simpa only [bankRead_cons_self] using h k
      rw [hf, ih b hrestA hrestB (tails_read_alike ha hb h)]

/-! ### FLAGS threaded through the acts -/

theorem flagsAfter_writeFlags (f g : Flags) (c : Nat) (rest : List CallerAct) :
    flagsAfter f (.writeFlags c g :: rest) = flagsAfter g rest :=
  rfl

/-- FLAGS after the acts of a context's own among all acts: an act of the context first, or one of another. -/
theorem flagsAfter_filter_cons (f : Flags) (a : CallerAct) (l : List CallerAct) (c : Nat) :
    flagsAfter f ((a :: l).filter (fun b => b.ctx == c)) =
      if c = a.ctx then flagsAfter f (a :: l.filter (fun b => b.ctx == c))
      else flagsAfter f (l.filter (fun b => b.ctx == c)) := by
  by_cases h : c = a.ctx
  · rw [if_pos h, List.filter_cons_of_pos (by simp [h])]
  · rw [if_neg h, List.filter_cons_of_neg (by simpa using Ne.symm h)]

/-- FLAGS after the call on the ports and the acts that follow it, from FLAGS at the end of that call. -/
theorem flagsAfter_callOnPorts (s : State) (l : List CallerAct) (c : Nat) :
    flagsAfter (s.flagsOf c) ((.call s.callOnPorts :: l).filter (fun a => a.ctx == c)) =
      flagsAfter ((s.endCall (blockOutputs s.cmd s.src s.dest s.flags)).flagsOf c)
        (l.filter (fun a => a.ctx == c)) := by
  have hctx : s.callOnPorts.ctx = s.ctx := rfl
  rw [flagsAfter_filter_cons, flagsOf_endCall, ctx_call, hctx]
  split
  · rename_i h
    subst h
    rfl
  · rfl

/-- A turn of the caller and then as many calls as its script holds thread FLAGS through the script. -/
theorem runCalls_callerTurn (script : List CallerAct) (s : State) (hs : s.script = script) (c : Nat) :
    ∃ t, runCalls (script.countP CallerAct.isCall) s.callerTurn = .next t ∧
      t.flagsOf c = flagsAfter (s.flagsOf c) (script.filter (fun a => a.ctx == c)) := by
  induction script generalizing s with
  | nil => exact ⟨s, by rw [callerTurn_nil hs]; rfl, rfl⟩
  | cons a rest ih =>
    cases a with
    | writeFlags k f =>
      rw [callerTurn_writeFlags hs, List.countP_cons_of_neg (by simp), flagsAfter_filter_cons, ctx_writeFlags,
        flagsAfter_writeFlags]
      obtain ⟨t, hrun, hflags⟩ := ih { s.writeFlags k f with script := rest } rfl
      refine ⟨t, hrun, ?_⟩
      rw [hflags, flagsOf_withScript, flagsOf_writeFlags]
      split <;> rfl
    | call k =>
      rw [callerTurn_call hs, List.countP_cons_of_pos (isCall_call k), runCalls_succ (step_eq _)]
      obtain ⟨t, hrun, hflags⟩ := ih (State.endCall { s.present k with script := rest } _) rfl
      exact ⟨t, hrun, hflags.trans (flagsAfter_callOnPorts { s.present k with script := rest } rest c).symm⟩

/-- Settles O50: the call on the ports ends, and the script follows. -/
theorem flagsThreadThroughOwnCalls : Obligations.FlagsThreadThroughOwnCalls := by
  intro s c
  obtain ⟨t, hrun, hflags⟩ := runCalls_callerTurn s.script (s.endCall (blockOutputs s.cmd s.src s.dest s.flags)) rfl c
  rw [Nat.add_comm, runCalls_succ (step_eq s)]
  exact ⟨t, hrun, hflags.trans (flagsAfter_callOnPorts s s.script c).symm⟩

/-- Settles O51: a context's FLAGS after all acts is a function of its FLAGS before and of its own acts (O50). -/
theorem contextsCannotInterfere : Obligations.ContextsCannotInterfere := by
  intro s₁ s₂ t₁ t₂ c hflags hacts hrun₁ hrun₂
  obtain ⟨u₁, hu₁, hthread₁⟩ := flagsThreadThroughOwnCalls s₁ c
  obtain ⟨u₂, hu₂, hthread₂⟩ := flagsThreadThroughOwnCalls s₂ c
  obtain rfl : u₁ = t₁ := Host.Outcome.next.inj (hu₁.symm.trans hrun₁)
  obtain rfl : u₂ = t₂ := Host.Outcome.next.inj (hu₂.symm.trans hrun₂)
  rw [hthread₁, hthread₂, hflags, hacts]

end Sys2Proof.Machine
end

section
/-! SUPPORT. Carry and borrow chains over words of any number (41_add_sub_family.md section 6;
70_reset_and_hazards.md section 3). -/

namespace Sys2Proof.Machine

/-! ### One word -/

/-- One word of a chain is exact: `σ` is 1 for addition and -1 for subtraction, `c` the carry or borrow taken in, and CF
the one given out (R61 to R64). -/
def WordLaw (w : Width) (σ : Int) (src dest : Port) (c : Nat) (o : Outputs) : Prop :=
  (normU o.result w : Int) + σ * (2 ^ w.bits * (ofBus o.flagsOut).cf.toNat) = normU dest w + σ * (normU src w + c)

/-- A sum below two moduli is its remainder and one modulus per carry. -/
theorem mod_add_carry {n m : Nat} (h : n < 2 * m) : n % m + m * (decide (m ≤ n)).toNat = n := by
  rw [mod_eq_of_lt_two_mul h]
  by_cases hm : m ≤ n
  · rw [if_pos hm, decide_eq_true hm, Bool.toNat_true]; omega
  · rw [if_neg hm, decide_eq_false hm, Bool.toNat_false]; omega

/-- A difference within one modulus of zero is its remainder less one modulus per borrow. -/
theorem emod_sub_borrow {i m : Int} (hlow : -m ≤ i) (hhigh : i < m) : i % m - m * (decide (i < 0)).toNat = i := by
  rw [emod_eq_of_ge_neg_of_lt hlow hhigh]
  by_cases hi : i < 0
  · rw [if_pos hi, decide_eq_true hi, Bool.toNat_true]; omega
  · rw [if_neg hi, decide_eq_false hi, Bool.toNat_false]; omega

theorem wordLaw_addOutputs (w : Width) (src dest : Port) {c : Nat} (hc : c ≤ 1) (old : Flags) :
    WordLaw w 1 src dest c (addOutputs w src dest c old) := by
  have hd := normU_lt dest w
  have hv := normU_lt src w
  have hsum := mod_add_carry (n := normU dest w + normU src w + c) (m := 2 ^ w.bits) (by omega)
  have hr : (normU dest w + normU src w + c) % 2 ^ w.bits < 2 ^ w.bits := Nat.mod_lt _ (Nat.two_pow_pos _)
  rw [WordLaw, addOutputs_flagsOut_cf, cfAdd, addOutputs, outputsOf, normU_zext hr, one_mul, one_mul]
  exact_mod_cast hsum.trans (Nat.add_assoc _ _ _)

theorem subOutputs_flagsOut_cf (w : Width) (src dest : Port) (b : Nat) (old : Flags) :
    (ofBus (subOutputs w src dest b old).flagsOut).cf = cfSub (normU dest w) (normU src w) b w := by
  rw [subOutputs, outputsOf, ofBus_toBus, passThrough_writesAll]

theorem wordLaw_subOutputs (w : Width) (src dest : Port) {b : Nat} (hb : b ≤ 1) (old : Flags) :
    WordLaw w (-1) src dest b (subOutputs w src dest b old) := by
  have hd := normU_lt dest w
  have hv := normU_lt src w
  have hcast := int_two_pow_eq_cast w.bits
  have hdiff := emod_sub_borrow (i := (normU dest w : Int) - normU src w - b) (m := 2 ^ w.bits) (by omega) (by omega)
  rw [WordLaw, subOutputs_flagsOut_cf, cfSub_eq_decide_neg, subOutputs, outputsOf, normU_zext (twosW_lt _ w),
    twosW_cast]
  linear_combination hdiff

/-! ### Any number of words -/

/-- The calls of the higher words of a chain, all of one instruction and one context. -/
def chainScript (ctx : Nat) (i : Instr) (rest : List (Port × Port)) : List CallerAct :=
  rest.map fun p => .call { ctx := ctx, cmd := encode i, src := p.1, dest := p.2 }

theorem multiword_cons (w : Width) (p : Port) (rest : List Port) :
    multiword w (p :: rest) = normU p w + 2 ^ w.bits * multiword w rest :=
  rfl

/-- The equation of a chain of `k` words: `ds` and `vs` are the words of `dest` and of `src`, `cf` the last carry. -/
def ChainLaw (w : Width) (σ : Int) (rs ds vs : List Port) (k c cf : Nat) : Prop :=
  (multiword w rs : Int) + σ * (2 ^ (w.bits * k) * cf) = multiword w ds + σ * (multiword w vs + c)

/-- The least significant word put below a chain whose carry-in is that word's carry-out. -/
theorem ChainLaw.cons {w : Width} {σ : Int} {rs ds vs : List Port} {k c cf : Nat} {src dest : Port} {o : Outputs}
    (hword : WordLaw w σ src dest c o) (hrest : ChainLaw w σ rs ds vs k (ofBus o.flagsOut).cf.toNat cf) :
    ChainLaw w σ (o.result :: rs) (dest :: ds) (src :: vs) (k + 1) c cf := by
  rw [WordLaw] at hword
  rw [ChainLaw] at hrest ⊢
  simp only [multiword_cons, Nat.mul_succ, pow_add]
  push_cast
  linear_combination hword + 2 ^ w.bits * hrest

/-- The chain of no words gives its carry-in out. -/
theorem ChainLaw.nil (w : Width) (σ : Int) (c : Nat) : ChainLaw w σ [] [] [] 0 c c := by
  simp [ChainLaw, multiword]

/-- A chain is exact when its first call and the instruction of its further calls are exact on one word. -/
theorem chainLaw_of_wordLaw {w : Width} {σ : Int} {i : Instr}
    (hi : ∀ src dest old, WordLaw w σ src dest old.cf.toNat (instrOutputs i src dest old))
    (rest : List (Port × Port)) (s : State) (c : Nat) (hscript : s.script = chainScript s.ctx i rest)
    (hfirst : WordLaw w σ s.src s.dest c (blockOutputs s.cmd s.src s.dest s.flags)) :
    ∃ t, runCalls (rest.length + 1) s = .next t ∧
      ChainLaw w σ (results (rest.length + 1) s) (s.dest :: rest.map Prod.snd) (s.src :: rest.map Prod.fst)
        (rest.length + 1) c (t.flagsOf s.ctx).cf.toNat := by
  induction rest generalizing s c with
  | nil =>
    have hstep := step_eq s
    rw [callerTurn_nil ((endCall_script s _).trans hscript)] at hstep
    refine ⟨_, runCalls_succ hstep, ?_⟩
    rw [results_succ hstep, flagsOf_endCall, if_pos rfl, endCall_out]
    exact ChainLaw.cons hfirst (ChainLaw.nil w σ _)
  | cons p rest ih =>
    have hstep := step_eq s
    generalize blockOutputs s.cmd s.src s.dest s.flags = o at hfirst hstep
    rw [callerTurn_call ((endCall_script s o).trans hscript)] at hstep
    have hnext := hi p.1 p.2 (s.endCall o).flags
    rw [← blockOutputs_of_ok (decode_encode i)] at hnext
    obtain ⟨t, hrun, hlaw⟩ := ih { (s.endCall o).present ⟨s.ctx, encode i, p.1, p.2⟩ with
      script := chainScript s.ctx i rest } _ rfl hnext
    rw [List.length_cons, runCalls_succ hstep, results_succ hstep]
    refine ⟨t, hrun, ?_⟩
    rw [flags_endCall] at hlaw
    exact ChainLaw.cons hfirst hlaw

/-- Settles O52: ADD is exact on a word with carry-in 0, and ADC with CF. -/
theorem carryChainAddsMultiwordNumbers : Obligations.CarryChainAddsMultiwordNumbers := by
  intro w s rest hcmd hscript
  have hfirst : WordLaw w 1 s.src s.dest 0 (blockOutputs s.cmd s.src s.dest s.flags) := by
    rw [hcmd, blockOutputs_of_ok (decode_encode _)]
    exact wordLaw_addOutputs w s.src s.dest (Nat.zero_le 1) s.flags
  obtain ⟨t, hrun, hlaw⟩ := chainLaw_of_wordLaw (i := .adc w)
    (fun src dest old => wordLaw_addOutputs w src dest (Bool.toNat_le _) old) rest s 0 hscript hfirst
  refine ⟨t, hrun, ?_⟩
  rw [ChainLaw, one_mul, one_mul, Nat.cast_zero, add_zero] at hlaw
  exact_mod_cast hlaw

/-- Settles O53: SUB is exact on a word with borrow-in 0, and SBB with CF. -/
theorem borrowChainSubtractsMultiwordNumbers : Obligations.BorrowChainSubtractsMultiwordNumbers := by
  intro w s rest hcmd hscript
  have hfirst : WordLaw w (-1) s.src s.dest 0 (blockOutputs s.cmd s.src s.dest s.flags) := by
    rw [hcmd, blockOutputs_of_ok (decode_encode _)]
    exact wordLaw_subOutputs w s.src s.dest (Nat.zero_le 1) s.flags
  obtain ⟨t, hrun, hlaw⟩ := chainLaw_of_wordLaw (i := .sbb w)
    (fun src dest old => wordLaw_subOutputs w src dest (Bool.toNat_le _) old) rest s 0 hscript hfirst
  refine ⟨t, hrun, ?_⟩
  rw [ChainLaw, Nat.cast_zero, add_zero] at hlaw
  linear_combination hlaw

end Sys2Proof.Machine
end

section
/-! SUPPORT. The low `W` bits of results as the library's bit vectors, how the bits above are filled (10_state.md R17),
and the two carries of 40_width_normalizer_flag_deriver.md section 2 in their other forms. -/

namespace Sys2Proof.Machine

/-! ### Numbers as `W`-bit vectors -/

theorem ofNat_mod_two_pow (n k : Nat) : BitVec.ofNat k (n % 2 ^ k) = BitVec.ofNat k n := by
  apply BitVec.eq_of_toNat_eq
  rw [BitVec.toNat_ofNat, BitVec.toNat_ofNat, Nat.mod_mod]

theorem ofNat_normU (v : Port) (w : Width) : BitVec.ofNat w.bits (normU v w) = v.setWidth w.bits := by
  rw [normU_eq_toNat_setWidth, BitVec.ofNat_toNat, BitVec.setWidth_eq]

theorem ofInt_normS (v : Port) (w : Width) : BitVec.ofInt w.bits (normS v w) = v.setWidth w.bits := by
  rw [normS_eq_toInt_setWidth, BitVec.ofInt_toInt]

theorem low_zext (r : Nat) (w : Width) : (zext r).setWidth w.bits = BitVec.ofNat w.bits r :=
  low_ofNat r w

theorem low_twos64 (i : Int) (w : Width) : (twos64 i).setWidth w.bits = BitVec.ofInt w.bits i :=
  low_ofInt i w

theorem low_sext_twosW (i : Int) (w : Width) : (sext (twosW i w) w).setWidth w.bits = BitVec.ofInt w.bits i := by
  rw [sext, low_twos64, signedW_eq_toInt (twosW_lt i w), BitVec.ofInt_toInt, ofNat_twosW]

/-! ### Filling above bit `W-1` -/

/-- Bits 63 to `W` of a port are zeros (R17). -/
def ZeroFilled (w : Width) (p : Port) : Prop :=
  p = (p.setWidth w.bits).setWidth 64

/-- Bits 63 to `W` of a port are copies of bit `W-1` (R17). -/
def SignFilled (w : Width) (p : Port) : Prop :=
  p = (p.setWidth w.bits).signExtend 64

theorem zeroFilled_zext {r : Nat} {w : Width} (hr : r < 2 ^ w.bits) : ZeroFilled w (zext r) := by
  rw [ZeroFilled, low_zext, ← zext_toNat, BitVec.toNat_ofNat, Nat.mod_eq_of_lt hr]

theorem signFilled_sext_twosW (i : Int) (w : Width) : SignFilled w (sext (twosW i w) w) := by
  rw [SignFilled, low_sext_twosW, sext_twosW]

/-- A result of the divide family is 0 or what the operation computes. -/
theorem divideOutputs_result_cases {P : Port → Prop} {r : Port} (h0 : P 0) (hr : P r) (old : Flags) (z : Bool) :
    P (divideOutputs old z r).result := by
  cases z with
  | true => exact h0
  | false => exact hr

theorem zeroFilled_zero (w : Width) : ZeroFilled w 0 := zeroFilled_zext (r := 0) (Nat.two_pow_pos _)

theorem signFilled_zero (w : Width) : SignFilled w 0 := by cases w <;> rfl

theorem mod_two_pow_lt (n : Nat) (w : Width) : n % 2 ^ w.bits < 2 ^ w.bits := Nat.mod_lt _ (Nat.two_pow_pos _)

/-- Settles O34: each result is the zero extension of a number below `2^W`, or the sign extension of `W` bits. -/
theorem upperResultBitsAreFilled : Obligations.UpperResultBitsAreFilled := by
  intro i s
  refine ⟨_, exec_eq i s, ?_⟩
  cases i with
  | mul | imul => trivial
  | idiv w | imod w => exact divideOutputs_result_cases (signFilled_zero w) (signFilled_sext_twosW _ w) _ _
  | div w | mod w => exact divideOutputs_result_cases (zeroFilled_zero w) (zeroFilled_zext (mod_two_pow_lt _ w)) _ _
  | add w | adc w | shl w | sal w => exact zeroFilled_zext (mod_two_pow_lt _ w)
  | sub w | sbb w | sar w => exact zeroFilled_zext (twosW_lt _ w)
  | and w => exact zeroFilled_zext (Nat.and_lt_two_pow _ (normU_lt s.src w))
  | or w => exact zeroFilled_zext (Nat.or_lt_two_pow (normU_lt s.dest w) (normU_lt s.src w))
  | xor w => exact zeroFilled_zext (Nat.xor_lt_two_pow (normU_lt s.dest w) (normU_lt s.src w))
  | shr w => exact zeroFilled_zext ((Nat.div_le_self _ _).trans_lt (normU_lt s.dest w))

/-! ### Carry of an addition -/

/-- Settles O4: each of the two sums wraps at most once, and then falls below what was added. -/
theorem additionCarryInBothForms : Obligations.AdditionCarryInBothForms := by
  intro w d v c hd hv hc pre r
  have htwo := two_le_two_pow_bits w
  have hcf : cfAdd d v c w = true ↔ 2 ^ w.bits ≤ d + v + c := decide_eq_true_iff
  have hpre : pre = if 2 ^ w.bits ≤ d + v then d + v - 2 ^ w.bits else d + v := mod_eq_of_lt_two_mul (by omega)
  have hpre_lt : pre < 2 ^ w.bits := mod_two_pow_lt _ w
  have hr : r = if 2 ^ w.bits ≤ pre + c then pre + c - 2 ^ w.bits else pre + c := mod_eq_of_lt_two_mul (by omega)
  rw [hcf]
  refine ⟨Iff.rfl, ?_, fun _ => ⟨?_, ?_⟩⟩ <;> split at hpre <;> split at hr <;> omega

/-! ### Carry of a shift -/

/-- The model's arithmetic right shift is the library's. -/
theorem ofInt_normS_div (v : Port) (w : Width) (n : Nat) :
    BitVec.ofInt w.bits (normS v w / 2 ^ n) = (v.setWidth w.bits).sshiftRight n := by
  rw [BitVec.sshiftRight_eq, Int.shiftRight_eq_div_pow, normS_eq_toInt_setWidth, int_two_pow_eq_cast]

/-- Bit 0 of a two's-complement value is its parity. -/
theorem getLsbD_ofInt_zero (i : Int) (w : Width) : (BitVec.ofInt w.bits i).getLsbD 0 = (i % 2 == 1) := by
  have hdvd : (2 : Int) ∣ 2 ^ w.bits := dvd_pow_self 2 w.bits_pos.ne'
  have hcast := twosW_cast i w
  have hpar := Int.emod_emod_of_dvd i hdvd
  rw [← ofNat_twosW, BitVec.getLsbD_ofNat, decide_eq_true w.bits_pos, Bool.true_and, Nat.testBit_zero, beq_eq_decide,
    decide_eq_decide]
  omega

theorem msb_setWidth_eq_testBit (v : Port) (w : Width) :
    (v.setWidth w.bits).msb = (normU v w).testBit (w.bits - 1) := by
  rw [← ofNat_normU, ← sfOf_eq_msb, sfOf]

theorem getLsbD_setWidth_eq_testBit (v : Port) (w : Width) (i : Nat) :
    (v.setWidth w.bits).getLsbD i = (normU v w).testBit i := by
  rw [normU_eq_toNat_setWidth, BitVec.testBit_toNat]

/-- CF of an arithmetic right shift is bit 0 of the value shifted by one less: bit `n-1`, or the sign beyond the
width. -/
theorem cfSar_normS (v : Port) (n : Nat) (w : Width) :
    cfSar (normS v w) n w =
      if n - 1 < w.bits then (normU v w).testBit (n - 1) else (normU v w).testBit (w.bits - 1) := by
  obtain ⟨hlow, hhigh⟩ := normS_bounds v w
  rw [cfSar_exact hlow hhigh, ← getLsbD_ofInt_zero _ w, ofInt_normS_div, BitVec.getLsbD_sshiftRight,
    decide_eq_false (Nat.not_le.mpr w.bits_pos), Bool.not_false, Bool.true_and, Nat.add_zero,
    getLsbD_setWidth_eq_testBit, msb_setWidth_eq_testBit]

/-- Settles O8: CF of SHL reads bit `W-1` below the shift, CF of SHR and SAR bit 0 above it. -/
theorem shiftCarryClosedForms : Obligations.ShiftCarryClosedForms := by
  intro w dest n hn d x
  have hpos := w.bits_pos
  have hd : d < 2 ^ w.bits := normU_lt dest w
  have hshl : cfShl d n w = (decide (n - 1 ≤ w.bits - 1) && d.testBit (w.bits - 1 - (n - 1))) := by
    rw [cfShl_exact, Nat.testBit_mod_two_pow, decide_eq_true (by omega), Bool.true_and, Nat.testBit_mul_two_pow]
  have hshr : cfShr d n w = d.testBit (n - 1) := by rw [cfShr_exact hd, Nat.testBit_div_two_pow, Nat.zero_add]
  have hsar := cfSar_normS dest n w
  rw [hshl, hshr]
  constructor
  · intro hle
    rw [decide_eq_true (by omega), Bool.true_and, show w.bits - 1 - (n - 1) = w.bits - n by omega]
    exact ⟨rfl, rfl, hsar.trans (if_pos (by omega))⟩
  · intro hlt
    rw [decide_eq_false (by omega), Bool.false_and]
    refine ⟨rfl, Nat.testBit_lt_two_pow (hd.trans_le ?_), hsar.trans (if_neg (by omega))⟩
    exact Nat.pow_le_pow_right (by decide) (by omega)

end Sys2Proof.Machine
end

section
/-! SUPPORT. Proofs of the families 42_mul_family.md (IMUL, R71) and 43_div_family.md (R75 to R81). -/

namespace Sys2Proof.Machine

/-! ### Multiply -/

/-- The product of two signed `W`-bit values fits in 64 bits: `W` is at most 32 (R71). -/
theorem toInt_twos64_mul (w : Width) (x y : BitVec w.bits) :
    (twos64 (x.toInt * y.toInt)).toInt = x.toInt * y.toInt := by
  have hexp : w.bits * 2 - 2 ≤ 62 := by have := w.bits_le; omega
  have hpow : (2 : Int) ^ (w.bits * 2 - 2) ≤ 2 ^ 62 := pow_le_pow_right₀ (by norm_num) hexp
  have hlow := BitVec.le_toInt_mul_toInt (x := x) (y := y)
  have hhigh := BitVec.toInt_mul_toInt_le (x := x) (y := y)
  exact BitVec.toInt_ofInt_eq_self (by decide) (by omega) (by omega)

/-- The effect of a call that writes no flag. -/
theorem callEffect_endCall_writesNone (s : State) (result : Port) (dbz : Bool) :
    CallEffect s (s.endCall (outputsOf s.flags result writesNone dbz)) result s.flags 0b00000 dbz := by
  rw [← writeMask_writesNone]
  exact callEffect_endCall_outputsOf s result writesNone dbz

/-- Settles O14: the signed view of both operands, and the range of their product. -/
theorem imulResultFlagsAndFrame : Obligations.ImulResultFlagsAndFrame := by
  intro w s p
  have hout : imulOutputs w s.src s.dest s.flags = outputsOf s.flags (twos64 p) writesNone false := by
    rw [imulOutputs, normS_eq_toInt_setWidth, normS_eq_toInt_setWidth]
  refine ⟨encode_eq_four_mul_opCode_add (.imul w), _, exec_eq (.imul w) s, ?_⟩
  rw [instrOutputs, hout]
  exact ⟨callEffect_endCall_writesNone s _ _, toInt_twos64_mul w _ _⟩

/-- Settles O21: the unsigned and the signed view of an operand are the same `W` bits. -/
theorem signedAndUnsignedProductsShareLowHalf : Obligations.SignedAndUnsignedProductsShareLowHalf := by
  intro w s
  refine ⟨_, _, exec_eq (.mul w) s, exec_eq (.imul w) s, ?_⟩
  calc (zext (normU s.dest w * normU s.src w)).setWidth w.bits
      = s.dest.setWidth w.bits * s.src.setWidth w.bits := by
        rw [low_zext, BitVec.ofNat_mul, ofNat_normU, ofNat_normU]
    _ = (twos64 (normS s.dest w * normS s.src w)).setWidth w.bits := by
        rw [low_twos64, BitVec.ofInt_mul, ofInt_normS, ofInt_normS]

/-! ### Divide -/

/-- The two effects of a call of the divide family, by its zero test (R75, R80). -/
theorem callEffect_of_divideOutputs {i : Instr} {s : State} {z : Bool} {r : Port}
    (h : instrOutputs i s.src s.dest s.flags = divideOutputs s.flags z r) :
    (z = false → ∃ t, exec i s = .next t ∧ CallEffect s t r s.flags 0b00000 false) ∧
    (z = true → ∃ t, exec i s = .next t ∧ CallEffect s t 0 s.flags 0b00000 true) := by
  constructor <;> rintro rfl <;> refine ⟨_, exec_eq i s, ?_⟩ <;> rw [h]
  · exact callEffect_endCall_writesNone s r false
  · exact callEffect_endCall_writesNone s 0 true

/-- The remainder by a normalised divisor needs no cut. -/
theorem mod_normU_mod {src : Port} {w : Width} (h : normU src w ≠ 0) (n : Nat) :
    n % normU src w % 2 ^ w.bits = n % normU src w :=
  Nat.mod_eq_of_lt ((Nat.mod_lt n (Nat.pos_of_ne_zero h)).trans (normU_lt src w))

/-- Settles O15: the zero test is on the normalised divisor. -/
theorem divResultFlagsAndFrame : Obligations.DivResultFlagsAndFrame := by
  intro w s n v
  obtain ⟨hnonzero, hzero⟩ := callEffect_of_divideOutputs (i := .div w) (s := s) rfl
  exact ⟨encode_eq_four_mul_opCode_add (.div w), fun hv => hnonzero (beq_eq_false_iff_ne.mpr hv),
    fun hv => hzero (beq_iff_eq.mpr hv)⟩

/-- Settles O16: the zero test is on the whole `src`, and the cut quotient is sign-extended. -/
theorem idivResultFlagsAndFrame : Obligations.IdivResultFlagsAndFrame := by
  intro w s n v
  obtain ⟨hnonzero, hzero⟩ := callEffect_of_divideOutputs (i := .idiv w) (s := s) rfl
  rw [sext_twosW] at hnonzero
  exact ⟨encode_eq_four_mul_opCode_add (.idiv w), fun hv => hnonzero (beq_eq_false_iff_ne.mpr hv),
    fun hv => hzero (beq_iff_eq.mpr hv)⟩

/-- Settles O17: as DIV, and the remainder is below the divisor already. -/
theorem modResultFlagsAndFrame : Obligations.ModResultFlagsAndFrame := by
  intro w s n v
  obtain ⟨hnonzero, hzero⟩ := callEffect_of_divideOutputs (i := .mod w) (s := s) rfl
  refine ⟨encode_eq_four_mul_opCode_add (.mod w), fun hv => ?_, fun hv => hzero (beq_iff_eq.mpr hv)⟩
  rw [divisorU, mod_normU_mod hv] at hnonzero
  exact hnonzero (beq_eq_false_iff_ne.mpr hv)

/-- Settles O18: the remainder that goes with the quotient toward zero is the library's `tmod`. -/
theorem imodResultFlagsAndFrame : Obligations.ImodResultFlagsAndFrame := by
  intro w s n v
  obtain ⟨hnonzero, hzero⟩ := callEffect_of_divideOutputs (i := .imod w) (s := s) rfl
  rw [← Int.tmod_def, sext_twosW] at hnonzero
  exact ⟨encode_eq_four_mul_opCode_add (.imod w), fun hv => hnonzero (beq_eq_false_iff_ne.mpr hv),
    fun hv => hzero (beq_iff_eq.mpr hv)⟩

/-! ### The identities of exact division -/

theorem abs_tmod_lt (n : Int) {v : Int} (hv : v ≠ 0) : |n.tmod v| < |v| := by
  rw [Int.abs_eq_natAbs, Int.abs_eq_natAbs, Int.natAbs_tmod]
  exact_mod_cast Nat.mod_lt _ (Int.natAbs_pos.mpr hv)

/-- The remainder is zero or has the dividend's sign (R81). -/
theorem tmod_eq_zero_or_neg_iff (n v : Int) : n.tmod v = 0 ∨ (n.tmod v < 0 ↔ n < 0) := by
  have hsign := Int.sign_tmod n v
  split at hsign
  · exact .inl (Int.sign_eq_zero_iff_zero.mp hsign)
  · right
    rw [← Int.sign_eq_neg_one_iff_neg, hsign, Int.sign_eq_neg_one_iff_neg]

/-- The quotient toward zero is negative exactly for operands of unlike sign that do not round to zero (R81). -/
theorem tdiv_neg_iff {n v : Int} (hv : v ≠ 0) : n.tdiv v < 0 ↔ (n < 0 ↔ ¬v < 0) ∧ |v| ≤ |n| := by
  rw [← Int.sign_eq_neg_one_iff_neg, Int.sign_tdiv, Int.abs_eq_natAbs, Int.abs_eq_natAbs, Nat.cast_le]
  split
  · omega
  · have hn : n ≠ 0 := by omega
    rcases lt_or_gt_of_ne hn with hn | hn <;> rcases lt_or_gt_of_ne hv with hv | hv
    · rw [Int.sign_eq_neg_one_of_neg hn, Int.sign_eq_neg_one_of_neg hv]; omega
    · rw [Int.sign_eq_neg_one_of_neg hn, Int.sign_eq_one_of_pos hv]; omega
    · rw [Int.sign_eq_one_of_pos hn, Int.sign_eq_neg_one_of_neg hv]; omega
    · rw [Int.sign_eq_one_of_pos hn, Int.sign_eq_one_of_pos hv]; omega

/-- Settles O19: the quotient and the remainder are the library's, of `Nat` for DIV and MOD, toward zero for IDIV and
IMOD; the four calls' results are those of O15 to O18. -/
theorem divisionIdentities : Obligations.DivisionIdentities := by
  intro w s
  constructor
  · intro hv
    obtain ⟨-, hdiv, -⟩ := divResultFlagsAndFrame w s
    obtain ⟨t, hdiv, hq, -⟩ := hdiv hv
    obtain ⟨-, hmod, -⟩ := modResultFlagsAndFrame w s
    obtain ⟨u, hmod, hm, -⟩ := hmod hv
    refine ⟨t, u, hdiv, hmod, _, _, (Nat.div_add_mod _ _).symm, Nat.mod_lt _ (Nat.pos_of_ne_zero hv), ?_, ?_⟩
    · rw [hq, low_ofNat, ofNat_mod_two_pow]
    · rw [hm]
  · intro hsrc
    have hv : s.src.toInt ≠ 0 := fun h => hsrc (BitVec.toInt_inj.mp h)
    obtain ⟨-, hdiv, -⟩ := idivResultFlagsAndFrame w s
    obtain ⟨t, hdiv, hq, -⟩ := hdiv hv
    obtain ⟨-, hmod, -⟩ := imodResultFlagsAndFrame w s
    obtain ⟨u, hmod, hm, -⟩ := hmod hv
    refine ⟨t, u, hdiv, hmod, _, _, (Int.mul_tdiv_add_tmod _ _).symm, abs_tmod_lt _ hv, tmod_eq_zero_or_neg_iff _ _,
      tdiv_neg_iff hv, ?_, ?_⟩
    · rw [hq, ← sext_twosW, low_sext_twosW]
    · rw [hm, ← sext_twosW, low_sext_twosW]

end Sys2Proof.Machine
end

section
/-! SUPPORT. Proofs of the family 45_shifts.md: SHL, SHR, SAR and SAL at every count (R90 to R96). -/

namespace Sys2Proof.Machine

/-! ### The outputs with the exact power of two -/

theorem shlOutputs_exact (w : Width) (src dest : Port) (old : Flags) :
    let d := normU dest w
    let n := normU src w
    let r := d * 2 ^ n % 2 ^ w.bits
    shlOutputs w src dest old =
      outputsOf old (zext r) (writesShift n ((d * 2 ^ (n - 1) % 2 ^ w.bits).testBit (w.bits - 1)) r w) false := by
  intro d n r
  rw [shlOutputs, shl_distance, cfShl_exact]

theorem shrOutputs_exact (w : Width) (src dest : Port) (old : Flags) :
    let d := normU dest w
    let n := normU src w
    let r := d / 2 ^ n
    shrOutputs w src dest old = outputsOf old (zext r) (writesShift n ((d / 2 ^ (n - 1)).testBit 0) r w) false := by
  intro d n r
  rw [shrOutputs, shr_distance (normU_lt dest w), cfShr_exact (normU_lt dest w)]

theorem sarOutputs_exact (w : Width) (src dest : Port) (old : Flags) :
    let x := normS dest w
    let n := normU src w
    let r := twosW (x / 2 ^ n) w
    sarOutputs w src dest old = outputsOf old (zext r) (writesShift n (x / 2 ^ (n - 1) % 2 == 1) r w) false := by
  intro x n r
  obtain ⟨hlow, hhigh⟩ := normS_bounds dest w
  rw [sarOutputs, sar_distance hlow hhigh, cfSar_exact hlow hhigh]

/-- The effect of a shift by `n`: CF is written when `n` is at least 1, OF never (R90, R95). -/
theorem callEffect_endCall_writesShift (s : State) (n : Nat) (cf : Bool) (r : Nat) (w : Width) :
    CallEffect s (s.endCall (outputsOf s.flags (zext r) (writesShift n cf r w) false)) (zext r)
      { s.flags with cf := if n = 0 then s.flags.cf else cf, sf := sfOf r w, zf := zfOf r, pf := pfOf r }
      (if n = 0 then 0b00111 else 0b10111) false := by
  rw [← passThrough_writesShift, ← writeMask_writesShift n cf r w]
  exact callEffect_endCall_outputsOf s _ _ _

/-- Settles O23: the outputs with the exact power, and the effect of a shift. -/
theorem shlResultFlagsAndFrame : Obligations.ShlResultFlagsAndFrame := by
  intro w s d n r
  refine ⟨encode_eq_four_mul_opCode_add (.shl w), _, exec_eq (.shl w) s, ?_⟩
  rw [instrOutputs, shlOutputs_exact]
  exact callEffect_endCall_writesShift s n _ r w

/-- Settles O24: as SHL, with the quotient. -/
theorem shrResultFlagsAndFrame : Obligations.ShrResultFlagsAndFrame := by
  intro w s d n r
  refine ⟨encode_eq_four_mul_opCode_add (.shr w), _, exec_eq (.shr w) s, ?_⟩
  rw [instrOutputs, shrOutputs_exact]
  exact callEffect_endCall_writesShift s n _ r w

/-- An arithmetic right shift keeps the sign (45_shifts.md section 4). -/
theorem sfOf_normS_div (v : Port) (w : Width) (n : Nat) :
    sfOf (twosW (normS v w / 2 ^ n) w) w = (v.setWidth w.bits).msb := by
  rw [sfOf_eq_msb, ofNat_twosW, ofInt_normS_div, BitVec.msb_sshiftRight]

/-- Settles O25: as SHR, with the signed value, whose sign the shift keeps. -/
theorem sarResultFlagsAndFrame : Obligations.SarResultFlagsAndFrame := by
  intro w s x n r
  have hx : normS s.dest w = x := normS_eq_toInt_setWidth s.dest w
  refine ⟨encode_eq_four_mul_opCode_add (.sar w), _, exec_eq (.sar w) s, ?_⟩
  rw [instrOutputs, sarOutputs_exact, ← sfOf_normS_div s.dest w n, hx, ← beq_eq_decide (x / 2 ^ (n - 1) % 2)]
  exact callEffect_endCall_writesShift s n _ r w

/-- A call of SAL has every effect a call of SHL has (R94). -/
theorem forall_shl_sal {P : State → Prop} {w : Width} {s : State} (h : ∃ t, exec (.shl w) s = .next t ∧ P t) :
    ∀ i ∈ [Instr.shl w, Instr.sal w], ∃ t, exec i s = .next t ∧ P t := by
  intro i hi
  simp only [List.mem_cons, List.not_mem_nil, or_false] at hi
  rcases hi with rfl | rfl
  · exact h
  · rwa [exec_sal_eq_shl]

/-! ### Count 0 -/

/-- The signed and the unsigned view of a port reduce to the same number. -/
theorem twosW_normS (v : Port) (w : Width) : twosW (normS v w) w = normU v w := by
  rw [twosW, normS_emod, Int.toNat_natCast]

/-- With count 0 the power of two is 1, and every shift gives the normalised value (R95). -/
theorem instrOutputs_shift_zero {i : Instr} {w : Width}
    (hi : i ∈ [Instr.shl w, Instr.shr w, Instr.sar w, Instr.sal w]) {src : Port} (hn : normU src w = 0) (dest : Port) (old : Flags) :
    ∃ cf, instrOutputs i src dest old =
      outputsOf old (zext (normU dest w)) (writesShift 0 cf (normU dest w) w) false := by
  have hshl : shlOutputs w src dest old = outputsOf old (zext (normU dest w))
      (writesShift 0 (cfShl (normU dest w) 0 w) (normU dest w) w) false := by
    rw [shlOutputs, shl_distance, hn, pow_zero, mul_one, Nat.mod_eq_of_lt (normU_lt dest w)]
  obtain ⟨hlow, hhigh⟩ := normS_bounds dest w
  simp only [List.mem_cons, List.not_mem_nil, or_false] at hi
  rcases hi with rfl | rfl | rfl | rfl
  · exact ⟨_, hshl⟩
  · refine ⟨cfShr (normU dest w) 0 w, ?_⟩
    rw [instrOutputs, shrOutputs, shr_distance (normU_lt dest w), hn, pow_zero, Nat.div_one]
  · refine ⟨cfSar (normS dest w) 0 w, ?_⟩
    rw [instrOutputs, sarOutputs, sar_distance hlow hhigh, hn, pow_zero, Int.ediv_one, twosW_normS]
  · exact ⟨_, hshl⟩

/-- Settles O27: the value comes back, and a shift by 0 writes no CF. -/
theorem shiftByZeroKeepsCarry : Obligations.ShiftByZeroKeepsCarry := by
  intro w s hn i hi r
  obtain ⟨cf, hout⟩ := instrOutputs_shift_zero hi hn s.dest s.flags
  refine ⟨_, exec_eq i s, ?_⟩
  rw [hout]
  exact callEffect_endCall_writesShift s 0 cf r w

/-! ### Counts of `W` or more -/

theorem twosW_neg_one (w : Width) : twosW (-1) w = 2 ^ w.bits - 1 := by cases w <;> rfl

theorem twosW_zero (w : Width) : twosW 0 w = 0 := by cases w <;> rfl

section
variable {w : Width} {n : Nat} (hn : w.bits ≤ n) (dest : Port)
include hn

theorem cfShl_of_width_le : cfShl (normU dest w) n w = (decide (n = w.bits) && (normU dest w).testBit 0) := by
  obtain ⟨hle, hlt⟩ := shiftCarryClosedForms w dest n (w.bits_pos.trans_le hn)
  rcases hn.eq_or_lt with rfl | h
  · rw [decide_eq_true rfl, Bool.true_and, ← Nat.sub_self w.bits]
    obtain ⟨hshl, -, -⟩ := hle le_rfl
    exact hshl
  · rw [decide_eq_false h.ne', Bool.false_and]
    obtain ⟨hshl, -, -⟩ := hlt h
    exact hshl

theorem cfShr_of_width_le :
    cfShr (normU dest w) n w = (decide (n = w.bits) && (normU dest w).testBit (w.bits - 1)) := by
  obtain ⟨hle, hlt⟩ := shiftCarryClosedForms w dest n (w.bits_pos.trans_le hn)
  rcases hn.eq_or_lt with rfl | h
  · rw [decide_eq_true rfl, Bool.true_and]
    obtain ⟨-, hshr, -⟩ := hle le_rfl
    exact hshr
  · rw [decide_eq_false h.ne', Bool.false_and]
    obtain ⟨-, hshr, -⟩ := hlt h
    exact hshr

theorem cfSar_of_width_le : cfSar (normS dest w) n w = (normU dest w).testBit (w.bits - 1) := by
  rw [cfSar_normS]
  split
  · rw [show n - 1 = w.bits - 1 by omega]
  · rfl

theorem shl_of_width_le (d : Nat) : d * 2 ^ n % 2 ^ w.bits = 0 :=
  Nat.mod_eq_zero_of_dvd ((Nat.pow_dvd_pow 2 hn).mul_left d)

theorem shr_of_width_le : normU dest w / 2 ^ n = 0 :=
  Nat.div_eq_of_lt ((normU_lt dest w).trans_le (Nat.pow_le_pow_right (by decide) hn))

/-- Beyond the width an arithmetic right shift leaves copies of the sign alone (R96). -/
theorem twosW_sar_of_width_le :
    twosW (normS dest w / 2 ^ n) w = if (normU dest w).testBit (w.bits - 1) then 2 ^ w.bits - 1 else 0 := by
  obtain ⟨hlow, hhigh⟩ := normS_bounds dest w
  have hpow : (2 : Int) ^ (w.bits - 1) ≤ 2 ^ n := pow_le_pow_right₀ (by norm_num) (by omega)
  rw [ediv_eq_of_bounds (by omega) (by omega), testBit_normU_sign]
  simp only [decide_eq_true_eq]
  split
  · exact twosW_neg_one w
  · exact twosW_zero w

end

/-- SAR by `W` or more, whose result and CF are the sign (R96). -/
theorem sarOutputs_of_width_le {w : Width} {src dest : Port} {sign : Bool} (hn : w.bits ≤ normU src w)
    (hsign : (normU dest w).testBit (w.bits - 1) = sign) (old : Flags) :
    let r := if sign then 2 ^ w.bits - 1 else 0
    sarOutputs w src dest old = outputsOf old (zext r) (writesShift (normU src w) sign r w) false := by
  intro r
  obtain ⟨hlow, hhigh⟩ := normS_bounds dest w
  rw [sarOutputs, sar_distance hlow hhigh, twosW_sar_of_width_le hn, cfSar_of_width_le hn, hsign]

/-- The effect of a shift whose count is not 0. -/
theorem callEffect_of_shift {i : Instr} {s : State} {n : Nat} {cf : Bool} {r : Nat} {w : Width} (hn : n ≠ 0)
    (h : instrOutputs i s.src s.dest s.flags = outputsOf s.flags (zext r) (writesShift n cf r w) false) :
    ∃ t, exec i s = .next t ∧ CallEffect s t (zext r)
      { s.flags with cf := cf, sf := sfOf r w, zf := zfOf r, pf := pfOf r } 0b10111 false := by
  have heffect := callEffect_endCall_writesShift s n cf r w
  rw [if_neg hn, if_neg hn] at heffect
  exact ⟨_, exec_eq i s, h ▸ heffect⟩

theorem sfOf_zero (w : Width) : sfOf 0 w = false := Nat.zero_testBit _

theorem sfOf_allOnes (w : Width) : sfOf (2 ^ w.bits - 1) w = true := by cases w <;> decide

theorem zfOf_allOnes (w : Width) : zfOf (2 ^ w.bits - 1) = false := by cases w <;> decide

theorem pfOf_allOnes (w : Width) : pfOf (2 ^ w.bits - 1) = true := by cases w <;> decide

/-- A nonzero-count shift whose result is 0. -/
theorem callEffect_of_shift_to_zero {i : Instr} {s : State} {n : Nat} {cf : Bool} {w : Width} (hn : n ≠ 0)
    (h : instrOutputs i s.src s.dest s.flags = outputsOf s.flags (zext 0) (writesShift n cf 0 w) false) :
    ∃ t, exec i s = .next t ∧ CallEffect s t 0
      { s.flags with cf := cf, sf := false, zf := true, pf := true } 0b10111 false := by
  have heffect := callEffect_of_shift hn h
  rw [sfOf_zero] at heffect
  exact heffect

/-- Settles O28: what is left of the value is 0 or its sign, and CF is O8's closed form. -/
theorem shiftByWidthOrMore : Obligations.ShiftByWidthOrMore := by
  intro w s d n hn
  change w.bits ≤ normU s.src w at hn
  have hn0 : normU s.src w ≠ 0 := (w.bits_pos.trans_le hn).ne'
  refine ⟨forall_shl_sal (callEffect_of_shift_to_zero (w := w) hn0 ?_),
    callEffect_of_shift_to_zero (w := w) hn0 ?_,
    fun hsign => callEffect_of_shift_to_zero hn0 (sarOutputs_of_width_le hn hsign s.flags), fun hsign => ?_⟩
  · rw [instrOutputs, shlOutputs, shl_distance, shl_of_width_le hn, cfShl_of_width_le hn]
    rfl
  · rw [instrOutputs, shrOutputs, shr_distance (normU_lt s.dest w), shr_of_width_le hn, cfShr_of_width_le hn]
    rfl
  · have heffect := callEffect_of_shift (i := .sar w) (r := 2 ^ w.bits - 1) hn0
      (sarOutputs_of_width_le hn hsign s.flags)
    rw [sfOf_allOnes, zfOf_allOnes, pfOf_allOnes] at heffect
    exact heffect

end Sys2Proof.Machine
end

section
/-! SUPPORT. Agreement of the results and of CF and OF with the library's `W`-bit operations (R61 to R64, R70,
R91 to R93). -/

namespace Sys2Proof.Machine

/-! ### Low bits of the results -/

theorem low_addOutputs (w : Width) (src dest : Port) (c : Nat) (old : Flags) :
    (addOutputs w src dest c old).result.setWidth w.bits =
      dest.setWidth w.bits + src.setWidth w.bits + BitVec.ofNat w.bits c := by
  rw [addOutputs, outputsOf, low_zext, ofNat_mod_two_pow, BitVec.ofNat_add, BitVec.ofNat_add, ofNat_normU, ofNat_normU]

theorem ofInt_normU (v : Port) (w : Width) : BitVec.ofInt w.bits (normU v w) = v.setWidth w.bits := by
  rw [BitVec.ofInt_natCast, ofNat_normU]

theorem low_subOutputs (w : Width) (src dest : Port) (b : Nat) (old : Flags) :
    (subOutputs w src dest b old).result.setWidth w.bits =
      dest.setWidth w.bits - src.setWidth w.bits - BitVec.ofNat w.bits b := by
  rw [subOutputs, outputsOf, low_zext, ofNat_twosW, BitVec.eq_sub_iff_add_eq, BitVec.eq_sub_iff_add_eq,
    ← BitVec.ofInt_natCast, ← ofInt_normU, ← ofInt_normU, ← BitVec.ofInt_add, ← BitVec.ofInt_add, sub_add_cancel,
    sub_add_cancel]

theorem low_mulOutputs (w : Width) (src dest : Port) (old : Flags) :
    (mulOutputs w src dest old).result.setWidth w.bits = dest.setWidth w.bits * src.setWidth w.bits := by
  rw [mulOutputs, outputsOf, low_zext, BitVec.ofNat_mul, ofNat_normU, ofNat_normU]

theorem low_shlOutputs (w : Width) (src dest : Port) (old : Flags) :
    (shlOutputs w src dest old).result.setWidth w.bits = dest.setWidth w.bits <<< (src.setWidth w.bits).toNat := by
  apply BitVec.eq_of_toNat_eq
  rw [shlOutputs_exact, outputsOf, low_zext, ofNat_mod_two_pow, BitVec.toNat_ofNat, BitVec.toNat_shiftLeft,
    Nat.shiftLeft_eq, normU_eq_toNat_setWidth, normU_eq_toNat_setWidth]

theorem low_shrOutputs (w : Width) (src dest : Port) (old : Flags) :
    (shrOutputs w src dest old).result.setWidth w.bits = dest.setWidth w.bits >>> (src.setWidth w.bits).toNat := by
  apply BitVec.eq_of_toNat_eq
  rw [shrOutputs_exact, outputsOf, low_zext, BitVec.toNat_ofNat,
    Nat.mod_eq_of_lt ((Nat.div_le_self _ _).trans_lt (normU_lt dest w)), BitVec.toNat_ushiftRight,
    Nat.shiftRight_eq_div_pow, normU_eq_toNat_setWidth, normU_eq_toNat_setWidth]

theorem low_sarOutputs (w : Width) (src dest : Port) (old : Flags) :
    (sarOutputs w src dest old).result.setWidth w.bits =
      (dest.setWidth w.bits).sshiftRight (src.setWidth w.bits).toNat := by
  rw [sarOutputs_exact, outputsOf, low_zext, ofNat_twosW, ofInt_normS_div, normU_eq_toNat_setWidth]

/-! ### CF and OF -/

theorem addOutputs_cf_eq_carry (w : Width) (src dest : Port) (c : Bool) (old : Flags) :
    (ofBus (addOutputs w src dest c.toNat old).flagsOut).cf =
      BitVec.carry w.bits (dest.setWidth w.bits) (src.setWidth w.bits) c := by
  rw [addOutputs_flagsOut_cf, cfAdd, normU_eq_toNat_setWidth, normU_eq_toNat_setWidth, BitVec.carry,
    Nat.mod_eq_of_lt (dest.setWidth w.bits).isLt, Nat.mod_eq_of_lt (src.setWidth w.bits).isLt]

theorem addOutputs_cf_eq_uaddOverflow (w : Width) (src dest : Port) (old : Flags) :
    (ofBus (addOutputs w src dest 0 old).flagsOut).cf = (dest.setWidth w.bits).uaddOverflow (src.setWidth w.bits) := by
  rw [addOutputs_flagsOut_cf, cfAdd, normU_eq_toNat_setWidth, normU_eq_toNat_setWidth, Nat.add_zero,
    BitVec.uaddOverflow]

theorem subOutputs_cf_eq_usubOverflow (w : Width) (src dest : Port) (old : Flags) :
    (ofBus (subOutputs w src dest 0 old).flagsOut).cf = (dest.setWidth w.bits).usubOverflow (src.setWidth w.bits) := by
  rw [subOutputs_flagsOut_cf, cfSub, normU_eq_toNat_setWidth, normU_eq_toNat_setWidth, Nat.add_zero,
    BitVec.usubOverflow]

theorem saddOverflow_iff_outsideSigned {w : Width} (x y : BitVec w.bits) :
    x.saddOverflow y = true ↔ OutsideSigned w (x.toInt + y.toInt) := by
  simp only [BitVec.saddOverflow, OutsideSigned, Bool.or_eq_true, decide_eq_true_eq, ge_iff_le, or_comm]

theorem ssubOverflow_iff_outsideSigned {w : Width} (x y : BitVec w.bits) :
    x.ssubOverflow y = true ↔ OutsideSigned w (x.toInt - y.toInt) := by
  simp only [BitVec.ssubOverflow, OutsideSigned, Bool.or_eq_true, decide_eq_true_eq, ge_iff_le, or_comm]

theorem addOutputs_of_eq_saddOverflow (w : Width) (src dest : Port) (old : Flags) :
    (ofBus (addOutputs w src dest 0 old).flagsOut).of = (dest.setWidth w.bits).saddOverflow (src.setWidth w.bits) := by
  have hof := (addOutputs_cf_of_iff w src dest (Nat.zero_le 1) old).2
  rw [Nat.cast_zero, add_zero, ← saddOverflow_iff_outsideSigned] at hof
  exact Bool.eq_iff_iff.mpr hof

theorem subOutputs_of_eq_ssubOverflow (w : Width) (src dest : Port) (old : Flags) :
    (ofBus (subOutputs w src dest 0 old).flagsOut).of = (dest.setWidth w.bits).ssubOverflow (src.setWidth w.bits) := by
  have hof := (subOutputs_cf_of_iff w src dest (Nat.zero_le 1) old).2
  rw [Nat.cast_zero, sub_zero, ← ssubOverflow_iff_outsideSigned] at hof
  exact Bool.eq_iff_iff.mpr hof

theorem mulOutputs_cf_eq_umulOverflow (w : Width) (src dest : Port) (old : Flags) :
    (ofBus (mulOutputs w src dest old).flagsOut).cf = (dest.setWidth w.bits).umulOverflow (src.setWidth w.bits) := by
  rw [mulOutputs, outputsOf, ofBus_toBus, passThrough_writesCFOF, cfofMul, normU_eq_toNat_setWidth,
    normU_eq_toNat_setWidth, BitVec.umulOverflow]

/-- Settles O29: each operation's low bits, CF and OF by its own lemma. -/
theorem operationsAreMachineArithmetic : Obligations.OperationsAreMachineArithmetic := by
  intro w s d v low
  have hadd := low_addOutputs w s.src s.dest 0 s.flags
  have hsub := low_subOutputs w s.src s.dest 0 s.flags
  rw [BitVec.add_zero] at hadd
  rw [BitVec.sub_zero] at hsub
  refine ⟨⟨_, exec_eq (.add w) s, hadd, ?_⟩, ⟨_, exec_eq (.adc w) s, low_addOutputs w s.src s.dest _ s.flags, ?_⟩,
    ⟨_, exec_eq (.sub w) s, hsub, ?_⟩, ⟨_, exec_eq (.sbb w) s, low_subOutputs w s.src s.dest _ s.flags⟩,
    ⟨_, exec_eq (.mul w) s, low_mulOutputs w s.src s.dest s.flags, ?_⟩,
    ⟨_, exec_eq (.shl w) s, low_shlOutputs w s.src s.dest s.flags⟩,
    ⟨_, exec_eq (.shr w) s, low_shrOutputs w s.src s.dest s.flags⟩,
    ⟨_, exec_eq (.sar w) s, low_sarOutputs w s.src s.dest s.flags⟩⟩ <;> rw [flags_endCall]
  · exact ⟨addOutputs_cf_eq_uaddOverflow w s.src s.dest s.flags, addOutputs_of_eq_saddOverflow w s.src s.dest s.flags⟩
  · exact addOutputs_cf_eq_carry w s.src s.dest s.flags.cf s.flags
  · exact ⟨subOutputs_cf_eq_usubOverflow w s.src s.dest s.flags, subOutputs_of_eq_ssubOverflow w s.src s.dest s.flags⟩
  · exact mulOutputs_cf_eq_umulOverflow w s.src s.dest s.flags

end Sys2Proof.Machine
end
